-- ==== Sys2Proof/Word.lean ====
section
/-! DEFINITION. The word types of the block: 64-bit registers, operands and results (00_scope.md R6, `WORD`),
and the bytes of its buffers. -/

namespace Sys2Proof

/-- A 64-bit register, operand, result or `CMD` value (00_scope.md R6). -/
abbrev Word := BitVec 64

/-- One byte of the scratch buffer or of a slot buffer (10_state.md R26, R34). -/
abbrev Byte := BitVec 8

end Sys2Proof
end

