-- ==== Sys2Proof/Syntax.lean ====
section
/-! DEFINITION. The PDA command set, version 1: one constructor per row of the opcode table (30_encoding.md R78).
A slot operand is a slot index (R72, fields `A` and `B`); no command holds an immediate (R80). -/

namespace Sys2Proof

/-- The seventeen commands of 30_encoding.md R78. Numeric operands are not part of a command: they are latched from
`ARG0` to `ARG2` (10_state.md R25). -/
inductive Instr where
  /-- `BF_SET_LEN`, 40_bitfield.md R98. -/
  | bfSetLen
  /-- `BF_GET_LEN`, 40_bitfield.md R99. -/
  | bfGetLen
  /-- `BF_WRITE_BYTE`, 40_bitfield.md R100. -/
  | bfWriteByte
  /-- `BF_READ_BYTE`, 40_bitfield.md R101. -/
  | bfReadByte
  /-- `BF_GET_BITS`, 40_bitfield.md R102. -/
  | bfGetBits
  /-- `BF_SET_BITS`, 40_bitfield.md R103. -/
  | bfSetBits
  /-- `BF_GET_SPAN`, 40_bitfield.md R104. -/
  | bfGetSpan
  /-- `BF_SET_SPAN`, 40_bitfield.md R105. -/
  | bfSetSpan
  /-- `CONSTRUCT s<a>`, 41_packed_number.md R114. -/
  | construct (a : Nat)
  /-- `RELEASE s<a>`, 41_packed_number.md R115. -/
  | release (a : Nat)
  /-- `DIGIT_AT s<a>`, 41_packed_number.md R116. -/
  | digitAt (a : Nat)
  /-- `SET_DIGIT_AT s<a>`, 41_packed_number.md R117. -/
  | setDigitAt (a : Nat)
  /-- `GET_BASE s<a>`, 41_packed_number.md R118. -/
  | getBase (a : Nat)
  /-- `GET_BPD s<a>`, 41_packed_number.md R119. -/
  | getBpd (a : Nat)
  /-- `GET_DIGIT_COUNT s<a>`, 41_packed_number.md R120. -/
  | getDigitCount (a : Nat)
  /-- `GET_CAPACITY s<a>`, 41_packed_number.md R121. -/
  | getCapacity (a : Nat)
  /-- `ADD_ASSIGN s<a>, s<b>`: `a` is dest, `b` is right; 42_carry_adder.md R127. -/
  | addAssign (a b : Nat)
deriving DecidableEq, Repr

end Sys2Proof
end

