-- ==== Sys2Proof/WellFormed.lean ====
section
/-! DEFINITION. Which commands have a word: every slot operand fits its 8-bit field (30_encoding.md R72). That a slot
exists (`A < NUM_SLOTS`) is no condition here: such a command is legal and faults with `BAD_SLOT` (R77). -/

namespace Sys2Proof

/-- A slot index fits the fields `A` and `B`: unsigned 8-bit (30_encoding.md R72). -/
abbrev SlotFits (a : Nat) : Prop := a < 256

/-- Every slot operand of the command fits its field. -/
def Instr.wellFormed : Instr → Bool
  | .bfSetLen => true
  | .bfGetLen => true
  | .bfWriteByte => true
  | .bfReadByte => true
  | .bfGetBits => true
  | .bfSetBits => true
  | .bfGetSpan => true
  | .bfSetSpan => true
  | .construct a => decide (SlotFits a)
  | .release a => decide (SlotFits a)
  | .digitAt a => decide (SlotFits a)
  | .setDigitAt a => decide (SlotFits a)
  | .getBase a => decide (SlotFits a)
  | .getBpd a => decide (SlotFits a)
  | .getDigitCount a => decide (SlotFits a)
  | .getCapacity a => decide (SlotFits a)
  | .addAssign a b => decide (SlotFits a) && decide (SlotFits b)

/-- The command has a word. -/
abbrev Instr.WellFormed (i : Instr) : Prop := i.wellFormed = true

end Sys2Proof
end

