-- ==== Sys2Proof/Decode.lean ====
section
/-! DEFINITION. Decoding a 64-bit `CMD` value (30_encoding.md R71 to R79), total and rejecting by name, and the encoder
beside it. A command is one whole 64-bit register value: no byte order shows (20_memory.md R47, log 13). -/

namespace Sys2Proof

/-- `v[hi:lo]`, bits `hi` down to `lo` of `v` read as an unsigned number (00_scope.md R8). -/
def bitSlice (v : Word) (hi lo : Nat) : Nat := v.toNat / 2 ^ lo % 2 ^ (hi - lo + 1)

/-- The field `OP` (30_encoding.md R72). -/
def fieldOp (v : Word) : Nat := bitSlice v 7 0

/-- The field `A` (30_encoding.md R72). -/
def fieldA (v : Word) : Nat := bitSlice v 15 8

/-- The field `B` (30_encoding.md R72). -/
def fieldB (v : Word) : Nat := bitSlice v 23 16

/-- The field `RSV` (30_encoding.md R72). -/
def fieldRsv (v : Word) : Nat := bitSlice v 31 24

/-- Bits 63:32, which must be 0 (30_encoding.md R71). -/
def fieldHigh (v : Word) : Nat := bitSlice v 63 32

/-- The three formats (30_encoding.md R73): which slot fields an opcode uses. -/
inductive Format where
  /-- Uses `OP` only. -/
  | n
  /-- Uses `OP` and `A`. -/
  | s
  /-- Uses `OP`, `A` and `B`. -/
  | ss
deriving DecidableEq, Repr

/-- An opcode's format, or none where the opcode is illegal (30_encoding.md R78, R79). -/
def opFormat : Nat → Option Format
  | 0x01 | 0x02 | 0x03 | 0x04 | 0x05 | 0x06 | 0x07 | 0x08 => some .n
  | 0x10 | 0x11 | 0x12 | 0x13 | 0x14 | 0x15 | 0x16 | 0x17 => some .s
  | 0x20 => some .ss
  | _ => none

/-- Which condition of 30_encoding.md R76 a value fails first. Each one makes the command illegal. -/
inductive DecodeError where
  /-- Some bit of 63:32 is set. -/
  | highBits
  /-- `OP` is none of the opcodes of R78. -/
  | unknownOpcode
  /-- `RSV ≠ 0`. -/
  | reservedField
  /-- A slot field the format does not use is not 0. -/
  | unusedSlotField
deriving DecidableEq, Repr

/-- The slot fields that a format does not use are 0 (30_encoding.md R73, R76). -/
def unusedFieldsZero (f : Format) (v : Word) : Bool :=
  match f with
  | .n => fieldA v == 0 && fieldB v == 0
  | .s => fieldB v == 0
  | .ss => true

/-- The command that an opcode names, with its slot operands (30_encoding.md R78). -/
def opInstr (op a b : Nat) : Option Instr :=
  match op with
  | 0x01 => some .bfSetLen
  | 0x02 => some .bfGetLen
  | 0x03 => some .bfWriteByte
  | 0x04 => some .bfReadByte
  | 0x05 => some .bfGetBits
  | 0x06 => some .bfSetBits
  | 0x07 => some .bfGetSpan
  | 0x08 => some .bfSetSpan
  | 0x10 => some (.construct a)
  | 0x11 => some (.release a)
  | 0x12 => some (.digitAt a)
  | 0x13 => some (.setDigitAt a)
  | 0x14 => some (.getBase a)
  | 0x15 => some (.getBpd a)
  | 0x16 => some (.getDigitCount a)
  | 0x17 => some (.getCapacity a)
  | 0x20 => some (.addAssign a b)
  | _ => none

/-- The decoder: the four legality conditions of 30_encoding.md R76 in their order, then the opcode map of R78. -/
def decode (v : Word) : Except DecodeError Instr :=
  if fieldHigh v ≠ 0 then .error .highBits
  else
    match opFormat (fieldOp v), opInstr (fieldOp v) (fieldA v) (fieldB v) with
    | some f, some i =>
      if fieldRsv v ≠ 0 then .error .reservedField
      else if unusedFieldsZero f v then .ok i
      else .error .unusedSlotField
    | _, _ => .error .unknownOpcode

/-- A `CMD` value from its fields, bits 31:24 and 63:32 zero (30_encoding.md R71, R72). -/
def packFields (op a b : Nat) : Word := BitVec.ofNat 64 (op + a * 2 ^ 8 + b * 2 ^ 16)

/-- The encoder: the word of a command, from the opcode map of 30_encoding.md R78 and the formats of R73. -/
def encode : Instr → Word
  | .bfSetLen => packFields 0x01 0 0
  | .bfGetLen => packFields 0x02 0 0
  | .bfWriteByte => packFields 0x03 0 0
  | .bfReadByte => packFields 0x04 0 0
  | .bfGetBits => packFields 0x05 0 0
  | .bfSetBits => packFields 0x06 0 0
  | .bfGetSpan => packFields 0x07 0 0
  | .bfSetSpan => packFields 0x08 0 0
  | .construct a => packFields 0x10 a 0
  | .release a => packFields 0x11 a 0
  | .digitAt a => packFields 0x12 a 0
  | .setDigitAt a => packFields 0x13 a 0
  | .getBase a => packFields 0x14 a 0
  | .getBpd a => packFields 0x15 a 0
  | .getDigitCount a => packFields 0x16 a 0
  | .getCapacity a => packFields 0x17 a 0
  | .addAssign a b => packFields 0x20 a b

/-- A command's row of spec/opcode_table.json as (match, mask): a value `w` selects the row iff `w &&& mask = match`
(spec/INDEX.md). -/
def tableRow : Instr → Word × Word
  | .bfSetLen => (0x0000000000000001, 0xFFFFFFFFFFFFFFFF)
  | .bfGetLen => (0x0000000000000002, 0xFFFFFFFFFFFFFFFF)
  | .bfWriteByte => (0x0000000000000003, 0xFFFFFFFFFFFFFFFF)
  | .bfReadByte => (0x0000000000000004, 0xFFFFFFFFFFFFFFFF)
  | .bfGetBits => (0x0000000000000005, 0xFFFFFFFFFFFFFFFF)
  | .bfSetBits => (0x0000000000000006, 0xFFFFFFFFFFFFFFFF)
  | .bfGetSpan => (0x0000000000000007, 0xFFFFFFFFFFFFFFFF)
  | .bfSetSpan => (0x0000000000000008, 0xFFFFFFFFFFFFFFFF)
  | .construct _ => (0x0000000000000010, 0xFFFFFFFFFFFF00FF)
  | .release _ => (0x0000000000000011, 0xFFFFFFFFFFFF00FF)
  | .digitAt _ => (0x0000000000000012, 0xFFFFFFFFFFFF00FF)
  | .setDigitAt _ => (0x0000000000000013, 0xFFFFFFFFFFFF00FF)
  | .getBase _ => (0x0000000000000014, 0xFFFFFFFFFFFF00FF)
  | .getBpd _ => (0x0000000000000015, 0xFFFFFFFFFFFF00FF)
  | .getDigitCount _ => (0x0000000000000016, 0xFFFFFFFFFFFF00FF)
  | .getCapacity _ => (0x0000000000000017, 0xFFFFFFFFFFFF00FF)
  | .addAssign _ _ => (0x0000000000000020, 0xFFFFFFFFFF0000FF)

/-- The `CMD` value whose low `nbits` bits are those of `w`, the bits above them 0. A command is one 64-bit value, its
bits numbered as the table numbers them (30_encoding.md R71, R72). -/
def tableWord (nbits w : Nat) : Word := BitVec.ofNat 64 (w % 2 ^ nbits)

/-- The command the decoder reads from the bits `w` of a row of the opcode table, or none where it refuses them. -/
def decodeTableWord (nbits w : Nat) : Option Instr :=
  match decode (tableWord nbits w) with
  | .ok i => some i
  | .error _ => none

end Sys2Proof
end

