-- ==== Sys2Proof/Config.lean ====
section
/-! DEFINITION. What an implementation fixes (00_scope.md R6, R7) and the free values the spec leaves open
(10_state.md R17, R22; 60_exceptions.md R140). -/

namespace Sys2Proof

/-- The four sizes the spec leaves open (00_scope.md R7). The model holds them in State, where no step changes
them (log 1). -/
structure Params where
  /-- `NUM_SLOTS`, the number of slots. -/
  numSlots : Nat
  /-- `BF_BUF_BYTES`, the size of the scratch buffer. -/
  bfBufBytes : Nat
  /-- `MAX_CAPACITY_BYTES`, the largest `capacityBytes` a slot may reach. -/
  maxCapacityBytes : Nat
  /-- `REG_BASE`, the platform address of the register window. -/
  regBase : Nat
deriving DecidableEq, Repr

/-- The constraints of 00_scope.md R7 on the four sizes. -/
abbrev Params.Valid (p : Params) : Prop :=
  (2 ≤ p.numSlots ∧ p.numSlots ≤ 256) ∧ (9 ≤ p.bfBufBytes ∧ p.bfBufBytes ≤ 2 ^ 16) ∧
    16 ≤ p.maxCapacityBytes ∧ p.regBase % 64 = 0

/-- The reference configuration of 00_scope.md R7: 4 slots, 16 scratch bytes, 64 bytes of capacity, base 0. -/
def Params.reference : Params :=
  { numSlots := 4, bfBufBytes := 16, maxCapacityBytes := 64, regBase := 0 }

/-- `BASE_MIN` of 00_scope.md R6. -/
def Config.baseMin : Nat := 2

/-- `BASE_MAX` of 00_scope.md R6. -/
def Config.baseMax : Nat := 2 ^ 63 - 1

/-- `RANGE_MAX` of 00_scope.md R6: the widest bit range one access moves. -/
def Config.rangeMax : Nat := 64

/-- What a buffer index that no cell lists reads as: 0, the value reset gives every byte of `BF` (10_state.md R26,
R41) and allocation and growth give every new byte of a slot (20_memory.md R56, 41_packed_number.md R114). -/
def Config.unlistedByte : Byte := 0

/-- The free 64-bit values: `RESULT` read while busy (10_state.md R17) and `RESULT` after a `CMD_WHILE_BUSY` fault
(60_exceptions.md R140). No body: nothing can be proved of a draw (log 4). -/
opaque Config.freeResult : Nat → Word

/-- The free 4-bit values: `STATUS.ERR` read while busy (10_state.md R22) and after a `CMD_WHILE_BUSY` fault
(60_exceptions.md R140). No body: nothing can be proved of a draw (log 4). -/
opaque Config.freeErr : Nat → BitVec 4

end Sys2Proof
end

