-- ==== Sys2Proof/Machine/State.lean ====
section
/-! DEFINITION. The state of the block as plain data: the register window, the latch, the scratch buffer and the slot
file (10_state.md R13 to R44), and the model's own fields (logs 1 to 4). -/

namespace Sys2Proof.Machine

/-- The bytes of a buffer, as (index, byte) cells in one canonical form (`Memory.wf`): indices strictly rising, and no
cell equal to what an unlisted index reads as (`Config.unlistedByte`). -/
abbrev Memory := List Host.Cell

/-- The canonical form of a buffer holds (log 11). -/
abbrev Memory.wf (m : Memory) : Prop :=
  m.Pairwise (fun x y => x.1 < y.1) ∧ ∀ c ∈ m, c.2 ≠ Config.unlistedByte

/-- Every listed index is below `n`: the buffer has no byte at `n` or above. -/
abbrev Memory.Below (m : Memory) (n : Nat) : Prop := ∀ c ∈ m, c.1 < n

/-- The cause of a fault (60_exceptions.md R138), held in `STATUS.FAULT_CAUSE`. -/
inductive FaultCause where
  /-- No fault since reset. -/
  | none
  /-- The latched value fails 30_encoding.md R76. -/
  | illegalCommand
  /-- A slot field the format uses is `≥ NUM_SLOTS`. -/
  | badSlot
  /-- A slot is FREE where LIVE is needed, or LIVE where FREE is needed. -/
  | slotState
  /-- A bit range breaks 40_bitfield.md R89. -/
  | range
  /-- A value does not fit its destination. -/
  | valueTooWide
  /-- An index is outside its bound. -/
  | index
  /-- The host wrote `CMD` while `STATUS.BUSY = 1`. -/
  | cmdWhileBusy
deriving DecidableEq, Repr

/-- The recoverable errors (60_exceptions.md R136). `OK`, code 0, is the absence of one. -/
inductive ErrCode where
  /-- `CONSTRUCT` with a base outside `[2, 2^63 − 1]`. -/
  | invalidBase
  /-- `ADD_ASSIGN` with two bases. -/
  | baseMismatch
  /-- Growth above `MAX_CAPACITY_BYTES`. -/
  | allocationFailure
deriving DecidableEq, Repr

/-- The fields of `STATUS` (10_state.md R19). The reserved bits hold nothing and read 0 (`Status.word`, log 9). -/
structure Status where
  /-- Bit 0, `BUSY`. -/
  busy : Bool
  /-- Bit 1, `FAULT`. -/
  fault : Bool
  /-- Bits 7:4, `ERR`: a code of 60_exceptions.md R136, or a draw after `CMD_WHILE_BUSY` (R140). -/
  err : BitVec 4
  /-- Bits 15:8, `FAULT_CAUSE`. -/
  cause : FaultCause
deriving DecidableEq, Repr

/-- The command latch (10_state.md R25). -/
structure Latch where
  /-- The 64-bit value written to `CMD`. -/
  word : Word
  /-- `ARG0` at the accepted write. -/
  a0 : Word
  /-- `ARG1` at the accepted write. -/
  a1 : Word
  /-- `ARG2` at the accepted write. -/
  a2 : Word
deriving DecidableEq, Repr

/-- The state of a slot (10_state.md R29). -/
inductive SlotState where
  /-- Holds no number. -/
  | free
  /-- Holds a number. -/
  | live
deriving DecidableEq, Repr

/-- One slot of the slot file (10_state.md R28). The sizes and counts are integers of the spec (log 10). -/
structure Slot where
  /-- FREE or LIVE (R29). -/
  state : SlotState
  /-- `base(s)` (R30). -/
  base : Nat
  /-- `bpd(s)`, bits per digit (R31). -/
  bpd : Nat
  /-- `digitCount(s)` (R32). -/
  digitCount : Nat
  /-- `capacityBytes(s)`, the length of `buf` (R33). -/
  capacityBytes : Nat
  /-- `buf(s)` (R34): the bytes 0 to `capacityBytes − 1`. -/
  buf : Memory
deriving DecidableEq, Repr

/-- A FREE slot's field values (10_state.md R35). -/
def Slot.free : Slot :=
  { state := .free, base := 0, bpd := 0, digitCount := 0, capacityBytes := 0, buf := [] }

/-- One move of an agent (10_state.md R13): the host's accesses and its reset, and the engine's turn. -/
inductive Event where
  /-- The ENGINE's turn: it completes the pending command, if there is one (30_encoding.md R75). -/
  | engine
  /-- The HOST reads `bytes` bytes at platform address `addr` (20_memory.md R46 to R49). -/
  | read (addr bytes : Nat)
  /-- The HOST writes `value` with an access of `bytes` bytes at platform address `addr`. -/
  | write (addr bytes : Nat) (value : Word)
  /-- The HOST asserts reset (70_reset_and_hazards.md R153). -/
  | reset
  /-- An access by a second HOST (60_exceptions.md R150). -/
  | secondHost
deriving DecidableEq, Repr

/-- Why the model stops with a fault. The block's own faults (60_exceptions.md R138) are no such stop: their entry is a
next state (log 8). -/
inductive Fault where
  /-- Raised by a host access that starts outside the 64 bytes of the register window: "What lies outside it is the
  platform's" (20_memory.md R46). Safe: the block takes no part in such an access (log 6). -/
  | outsideWindow
deriving DecidableEq, Repr

/-- Why the model refuses a step. -/
inductive Refusal where
  /-- Raised by `exec` alone, for a command without a meaning; no command is without one. Safe. -/
  | notModelled (mnemonic : String)
  /-- Raised by a host access to the window that is not 64 bits wide: refused by 20_memory.md R47. Safe (log 7). -/
  | accessWidth
  /-- Raised by a host access at an offset that is not a multiple of 8: refused by 20_memory.md R47. Safe (log 7). -/
  | accessAlignment
  /-- Raised by a second HOST: refused by 60_exceptions.md R150. Safe (log 7). -/
  | secondHost
deriving DecidableEq, Repr

/-- The machine: the block's state (10_state.md R15 to R35), the parameters (log 1), and the model's own fields
`schedule` (log 2), `observed` (log 3) and `draws` (log 4). -/
structure State where
  /-- The parameters of 00_scope.md R7; no step changes them. -/
  params : Params
  /-- `CMD` (R18). -/
  cmd : Word
  /-- `ARG0` (R16). -/
  arg0 : Word
  /-- `ARG1` (R16). -/
  arg1 : Word
  /-- `ARG2` (R16). -/
  arg2 : Word
  /-- `RESULT` (R17). -/
  result : Word
  /-- `STATUS` (R19). -/
  status : Status
  /-- `LATCH` (R25). -/
  latch : Latch
  /-- `BF` (R26): the bytes 0 to `BF_BUF_BYTES − 1`. -/
  bf : Memory
  /-- `BF_LEN` (R27). -/
  bfLen : Nat
  /-- The slots 0 to `NUM_SLOTS − 1` (R28). -/
  slots : List Slot
  /-- The agents' moves to come, the next one first (the model's own field, log 2). -/
  schedule : List Event
  /-- The values the host has read, the oldest first (R44; the model's own field, log 3). -/
  observed : List Word
  /-- How many free values have been drawn (the model's own field, log 4). -/
  draws : Nat
deriving DecidableEq, Repr

/-- `STATUS = 0`: not busy, no fault, ERR OK, cause NONE (10_state.md R41). -/
def Status.zero : Status := { busy := false, fault := false, err := 0, cause := .none }

/-- The block right after reset with the given parameters (10_state.md R41), no move to come and nothing read. -/
def State.resetWith (p : Params) : State :=
  { params := p
    cmd := 0
    arg0 := 0
    arg1 := 0
    arg2 := 0
    result := 0
    status := Status.zero
    latch := { word := 0, a0 := 0, a1 := 0, a2 := 0 }
    bf := []
    bfLen := 0
    slots := List.replicate p.numSlots Slot.free
    schedule := []
    observed := []
    draws := 0 }

/-- The block right after reset (10_state.md R41, 70_reset_and_hazards.md R153), in the reference configuration of
00_scope.md R7 (log 1). -/
def State.reset : State := State.resetWith Params.reference

end Sys2Proof.Machine
end

