-- ==== Sys2Proof/Machine/Flags.lean ====
section
/-! DEFINITION. The status register: the numeric codes (60_exceptions.md R136, R138), the layout of `STATUS`
(10_state.md R19), and what the end of a command does to it (30_encoding.md R75). -/

namespace Sys2Proof.Machine

/-- The code of a fault cause in `STATUS.FAULT_CAUSE` (60_exceptions.md R138). -/
def FaultCause.code : FaultCause → BitVec 8
  | .none => 0
  | .illegalCommand => 1
  | .badSlot => 2
  | .slotState => 3
  | .range => 4
  | .valueTooWide => 5
  | .index => 6
  | .cmdWhileBusy => 7

/-- The code of a recoverable error in `STATUS.ERR` (60_exceptions.md R136). -/
def ErrCode.code : ErrCode → BitVec 4
  | .invalidBase => 1
  | .baseMismatch => 2
  | .allocationFailure => 3

/-- `STATUS` as the host reads it (10_state.md R19, R24): bits 63:16 reserved, `FAULT_CAUSE`, `ERR`, bits 3:2 reserved,
`FAULT`, `BUSY`. -/
def Status.word (t : Status) : Word :=
  0#48 ++ t.cause.code ++ t.err ++ 0#2 ++ BitVec.ofBool t.fault ++ BitVec.ofBool t.busy

/-- A command completes with Ok: `ERR <- 0`, `BUSY <- 0` (30_encoding.md R75). -/
def Status.completeOk (t : Status) : Status := { t with busy := false, err := 0 }

/-- A command completes with an error: `ERR <- code`, `BUSY <- 0` (30_encoding.md R75). -/
def Status.completeError (t : Status) (e : ErrCode) : Status := { t with busy := false, err := e.code }

/-- Fault entry: `FAULT <- 1`, `FAULT_CAUSE <- cause`, `BUSY <- 0` (60_exceptions.md R139). -/
def Status.enterFault (t : Status) (c : FaultCause) : Status :=
  { t with busy := false, fault := true, cause := c }

/-- An accepted `CMD` write: `BUSY <- 1` (30_encoding.md R74). -/
def Status.issue (t : Status) : Status := { t with busy := true }

end Sys2Proof.Machine
end

