-- ==== Sys2Proof/Machine/Ops.lean ====
section
/-! DEFINITION. The named operations over buffers, slots and registers: reading and writing one byte, the bit view of a
buffer (20_memory.md R50), the slot file, the end of a command (30_encoding.md R75), fault entry (60_exceptions.md
R139, R140) and the way out of it, reset (70_reset_and_hazards.md R153). -/

namespace Sys2Proof.Machine

/-! ## Bytes of a buffer -/

/-- `MemRead`: the byte at an index (00_scope.md R9). -/
def Memory.read : Memory → Nat → Byte
  | [], _ => Config.unlistedByte
  | (k, c) :: r, a => if k = a then c else Memory.read r a

/-- `c` stored at `a` before the cells `r`, in the canonical form: a byte equal to what an unlisted index reads as is
not listed. -/
def Memory.put (a : Nat) (c : Byte) (r : Memory) : Memory :=
  if c = Config.unlistedByte then r else (a, c) :: r

/-- `MemWrite`: a byte stored at an index (00_scope.md R9). It keeps the canonical form. -/
def Memory.write : Memory → Nat → Byte → Memory
  | [], a, b => Memory.put a b []
  | (k, c) :: r, a, b =>
    if a < k then Memory.put a b ((k, c) :: r)
    else if a = k then Memory.put a b r
    else (k, c) :: Memory.write r a b

/-- `zeros(d) ++ buf`: every byte moves up by `d` and the bytes below `d` are 0 (20_memory.md R56). -/
def Memory.growFront (m : Memory) (d : Nat) : Memory := m.map (fun c => (c.1 + d, c.2))

/-! ## Bits of a buffer -/

/-- The index of the byte that holds bit `k` of a buffer of `len` bytes: counted from the last byte (20_memory.md
R50). -/
def byteOfBit (len k : Nat) : Nat := len - 1 - k / 8

/-- Bit `k` of a buffer of `len` bytes (20_memory.md R50, 40_bitfield.md R88). -/
def bitAt (m : Memory) (len k : Nat) : Bool := (m.read (byteOfBit len k)).getLsbD (k % 8)

/-- A byte with its bit `p` replaced. -/
def byteWithBit (x : Byte) (p : Nat) (v : Bool) : Byte :=
  if v then x ||| 1#8 <<< p else x &&& ~~~(1#8 <<< p)

/-- A buffer of `len` bytes with its bit `k` replaced. -/
def writeBit (m : Memory) (len k : Nat) (v : Bool) : Memory :=
  m.write (byteOfBit len k) (byteWithBit (m.read (byteOfBit len k)) (k % 8) v)

/-- The unsigned integer of the `w` bits from `start` up, bit `start` becoming bit 0 (40_bitfield.md R90). -/
def bitsValue (m : Memory) (len start : Nat) : Nat → Nat
  | 0 => 0
  | w + 1 => bitsValue m len start w + (bitAt m len (start + w)).toNat * 2 ^ w

/-- The `w` bits from `start` up replaced by the low `w` bits of `v` (40_bitfield.md R93). -/
def writeBits (m : Memory) (len start v : Nat) : Nat → Memory
  | 0 => m
  | w + 1 => writeBit (writeBits m len start v w) len (start + w) (v.testBit w)

/-- The bit range `[start, stop)` is valid on a buffer of `len` bytes (40_bitfield.md R89). -/
abbrev RangeValid (len start stop : Nat) : Prop :=
  start < stop ∧ stop - start ≤ Config.rangeMax ∧ stop ≤ 8 * len

/-- `GetBits` (40_bitfield.md R90). -/
def getBits (m : Memory) (len start stop : Nat) : Except FaultCause Nat :=
  if RangeValid len start stop then .ok (bitsValue m len start (stop - start)) else .error .range

/-- `SetBits` (40_bitfield.md R93): the range is checked before the value (R92). -/
def setBits (m : Memory) (len start stop v : Nat) : Except FaultCause Memory :=
  if RangeValid len start stop then
    if v < 2 ^ (stop - start) then .ok (writeBits m len start v (stop - start)) else .error .valueTooWide
  else .error .range

/-- `GetBitsSpan` (40_bitfield.md R96): the products are exact. -/
def getBitsSpan (m : Memory) (len e i : Nat) : Except FaultCause Nat := getBits m len (e * i) (e * (i + 1))

/-- `SetBitsSpan` (40_bitfield.md R96): the products are exact. -/
def setBitsSpan (m : Memory) (len e i v : Nat) : Except FaultCause Memory :=
  setBits m len (e * i) (e * (i + 1)) v

/-! ## Digits of a slot -/

/-- The bytes that `n` bits need: `ceil(n / 8)` (00_scope.md R8). -/
def ceilBytes (n : Nat) : Nat := (n + 7) / 8

/-- The loop of `minBitsNeeded`, with at most `fuel` rounds. -/
def minBitsFrom (x : Nat) : Nat → Nat → Nat
  | 0, p => p
  | fuel + 1, p => if 2 ^ p ≤ x then minBitsFrom x fuel (p + 1) else p

/-- `minBitsNeeded` (41_packed_number.md R107): 64 rounds are enough for a 64-bit value (log 12). -/
def minBitsNeeded (x : Nat) : Nat := minBitsFrom x 64 0

/-- The loop of `Digits`, with at most `fuel` rounds. -/
def digitsFrom (b : Nat) : Nat → Nat → List Nat
  | 0, _ => []
  | fuel + 1, x => x % b :: (if x / b = 0 then [] else digitsFrom b fuel (x / b))

/-- `Digits` (41_packed_number.md R112), least significant first: 64 rounds are enough for a 64-bit value in a base of
at least 2 (log 12). -/
def digitsOf (x b : Nat) : List Nat := digitsFrom b 64 x

/-- The doubling loop of `EnsureCapacity`, with at most `fuel` rounds. -/
def doubleUntil (need : Nat) : Nat → Nat → Nat
  | 0, c => c
  | fuel + 1, c => if c < need then doubleUntil need fuel (2 * c) else c

/-- `while c < need: c <- 2 · c` (41_packed_number.md R110): `need` rounds are enough from any `c ≥ 1` (log 12). -/
def growCapacity (need c : Nat) : Nat := doubleUntil need need c

/-- `capDigits(s)`: the whole digits that fit in the buffer (00_scope.md glossary). -/
def Slot.capDigits (sl : Slot) : Nat := 8 * sl.capacityBytes / sl.bpd

/-- Digit `i` of a buffer of `cap` bytes with `bpd` bits a digit (20_memory.md R54). -/
def digitRead (m : Memory) (cap bpd i : Nat) : Nat := bitsValue m cap (bpd * i) bpd

/-- `DigitWrite` (41_packed_number.md R108). Its uses always meet its preconditions, so it raises nothing (log 15). -/
def digitWrite (m : Memory) (cap bpd i v : Nat) : Memory := writeBits m cap (bpd * i) v bpd

/-- `digit(s, i)` (20_memory.md R54). -/
def Slot.digit (sl : Slot) (i : Nat) : Nat := digitRead sl.buf sl.capacityBytes sl.bpd i

/-- The digits of a list written from digit `i` up (41_packed_number.md R114). -/
def writeDigits (m : Memory) (cap bpd : Nat) : Nat → List Nat → Memory
  | _, [] => m
  | i, d :: ds => writeDigits (digitWrite m cap bpd i d) cap bpd (i + 1) ds

/-- `1 + max({ j < n : digit j ≠ 0 } ∪ { 0 })` (41_packed_number.md R117). -/
def significantDigits (m : Memory) (cap bpd : Nat) : Nat → Nat
  | 0 => 1
  | j + 1 => if digitRead m cap bpd j ≠ 0 then j + 1 else significantDigits m cap bpd j

/-- `EnsureCapacity(s, n)` (41_packed_number.md R110): the slot with room for `n` digits, or the error, with nothing
changed (R111). -/
def ensureCapacity (maxBytes : Nat) (sl : Slot) (n : Nat) : Except ErrCode Slot :=
  let need := ceilBytes (sl.bpd * n)
  if need ≤ sl.capacityBytes then .ok sl
  else
    let c := growCapacity need sl.capacityBytes
    if maxBytes < c then .error .allocationFailure
    else .ok { sl with buf := sl.buf.growFront (c - sl.capacityBytes), capacityBytes := c }

/-! ## The slot file -/

/-- The slot at an index (10_state.md R28). Every use has checked the index against `NUM_SLOTS` (30_encoding.md R77). -/
def State.slotAt (s : State) (a : Nat) : Slot := s.slots.getD a Slot.free

/-- The state with the slot at an index replaced. -/
def State.setSlot (s : State) (a : Nat) (sl : Slot) : State := { s with slots := s.slots.set a sl }

/-! ## The end of a command, faults and reset -/

/-- How a command ends (60_exceptions.md R135, 30_encoding.md R75). -/
inductive CmdOutcome where
  /-- `return Ok`, with the new state. -/
  | ok (t : State)
  /-- `return Ok(v)`, with the new state and the result. -/
  | okValue (t : State) (v : Nat)
  /-- `return Error(code)`. -/
  | error (e : ErrCode)
  /-- `raise Fault(cause)`. -/
  | fault (c : FaultCause)

/-- TAKING A FAULT (60_exceptions.md R139): nothing but `FAULT`, `FAULT_CAUSE` and `BUSY` changes. There is no handler
and no return (R141, R147): the way out is `State.hostReset`. -/
def State.takeFault (s : State) (c : FaultCause) : State := { s with status := s.status.enterFault c }

/-- `CmdWhileBusy` (60_exceptions.md R140): fault entry, with `RESULT` and `ERR` drawn. The slots and `BF` keep the
pre-state, as the rule's reader may (93_implementation_defined.md section 2, log 5). -/
def State.cmdWhileBusy (s : State) : State :=
  { s with
    status := { s.status.enterFault .cmdWhileBusy with err := Config.freeErr s.draws }
    result := Config.freeResult s.draws
    draws := s.draws + 1 }

/-- The engine applies a command's outcome and clears `BUSY` (30_encoding.md R75). -/
def complete (s : State) : CmdOutcome → State
  | .ok t => { t with status := t.status.completeOk }
  | .okValue t v => { t with result := BitVec.ofNat 64 v, status := t.status.completeOk }
  | .error e => { s with status := s.status.completeError e }
  | .fault c => s.takeFault c

/-- Reset (70_reset_and_hazards.md R153): every piece of the block's state takes its value of 10_state.md R41. The
parameters and the model's own fields stay (log 19). -/
def State.hostReset (s : State) : State :=
  { State.resetWith s.params with schedule := s.schedule, observed := s.observed, draws := s.draws }

end Sys2Proof.Machine
end

