-- ==== Sys2Proof/Machine/Operands.lean ====
section
/-! DEFINITION. How a command takes its operands: the latched numeric operands (30_encoding.md R80) and the slot
operands with their checks (R77, 60_exceptions.md R142). -/

namespace Sys2Proof.Machine

/-- `ARG[0]`: the latched value, unsigned, as written (00_scope.md R9, 30_encoding.md R80). -/
abbrev operand0 (s : State) : Nat := s.latch.a0.toNat

/-- `ARG[1]`, as `operand0`. -/
abbrev operand1 (s : State) : Nat := s.latch.a1.toNat

/-- `ARG[2]`, as `operand0`. -/
abbrev operand2 (s : State) : Nat := s.latch.a2.toNat

/-- A slot operand: `BAD_SLOT` where the slot does not exist (30_encoding.md R77), else the command goes on. -/
def needSlot (s : State) (a : Nat) (k : CmdOutcome) : CmdOutcome :=
  if s.params.numSlots ≤ a then .fault .badSlot else k

/-- A slot that must be in a given state, else `SLOT_STATE` (60_exceptions.md R138). -/
def needState (s : State) (a : Nat) (want : SlotState) (k : Slot → CmdOutcome) : CmdOutcome :=
  if (s.slotAt a).state = want then k (s.slotAt a) else .fault .slotState

/-- The one slot operand of a format-S command, in the state the command needs. -/
def slotOperand (s : State) (a : Nat) (want : SlotState) (k : Slot → CmdOutcome) : CmdOutcome :=
  needSlot s a (needState s a want k)

/-- A command that returns what a checked access gives, or faults with its cause. -/
def returnRead (s : State) : Except FaultCause Nat → CmdOutcome
  | .ok v => .okValue s v
  | .error c => .fault c

/-- A command that stores the scratch buffer a checked access gives, or faults with its cause. -/
def storeBf (s : State) : Except FaultCause Memory → CmdOutcome
  | .ok m => .ok { s with bf := m }
  | .error c => .fault c

end Sys2Proof.Machine
end

