-- ==== Sys2Proof/Machine/BitField.lean ====
section
/-! DEFINITION. The eight commands of the bitfield_accessor on the scratch buffer (40_bitfield.md R98 to R106). Each
command's checks and effect stand in its own definition; `complete` is the engine's end of it (30_encoding.md R75). -/

namespace Sys2Proof.Machine

/-- `BF_SET_LEN` (40_bitfield.md R98). -/
def bfSetLen (s : State) : CmdOutcome :=
  if s.params.bfBufBytes < operand0 s then .fault .index else .ok { s with bfLen := operand0 s }

/-- `BF_GET_LEN` (40_bitfield.md R99). -/
def bfGetLen (s : State) : CmdOutcome := .okValue s s.bfLen

/-- `BF_WRITE_BYTE` (40_bitfield.md R100): the index is checked first. -/
def bfWriteByte (s : State) : CmdOutcome :=
  if s.params.bfBufBytes ≤ operand0 s then .fault .index
  else if 255 < operand1 s then .fault .valueTooWide
  else .ok { s with bf := s.bf.write (operand0 s) (BitVec.ofNat 8 (operand1 s)) }

/-- `BF_READ_BYTE` (40_bitfield.md R101). -/
def bfReadByte (s : State) : CmdOutcome :=
  if s.params.bfBufBytes ≤ operand0 s then .fault .index else .okValue s (s.bf.read (operand0 s)).toNat

/-- `BF_GET_BITS` (40_bitfield.md R102). -/
def bfGetBits (s : State) : CmdOutcome := returnRead s (getBits s.bf s.bfLen (operand0 s) (operand1 s))

/-- `BF_SET_BITS` (40_bitfield.md R103). -/
def bfSetBits (s : State) : CmdOutcome :=
  storeBf s (setBits s.bf s.bfLen (operand0 s) (operand1 s) (operand2 s))

/-- `BF_GET_SPAN` (40_bitfield.md R104). -/
def bfGetSpan (s : State) : CmdOutcome := returnRead s (getBitsSpan s.bf s.bfLen (operand0 s) (operand1 s))

/-- `BF_SET_SPAN` (40_bitfield.md R105). -/
def bfSetSpan (s : State) : CmdOutcome :=
  storeBf s (setBitsSpan s.bf s.bfLen (operand0 s) (operand1 s) (operand2 s))

/-- The engine's step on `BF_SET_LEN`. -/
def execBfSetLen (s : State) : Host.Outcome State Fault Refusal := .next (complete s (bfSetLen s))

/-- The engine's step on `BF_GET_LEN`. -/
def execBfGetLen (s : State) : Host.Outcome State Fault Refusal := .next (complete s (bfGetLen s))

/-- The engine's step on `BF_WRITE_BYTE`. -/
def execBfWriteByte (s : State) : Host.Outcome State Fault Refusal := .next (complete s (bfWriteByte s))

/-- The engine's step on `BF_READ_BYTE`. -/
def execBfReadByte (s : State) : Host.Outcome State Fault Refusal := .next (complete s (bfReadByte s))

/-- The engine's step on `BF_GET_BITS`. -/
def execBfGetBits (s : State) : Host.Outcome State Fault Refusal := .next (complete s (bfGetBits s))

/-- The engine's step on `BF_SET_BITS`. -/
def execBfSetBits (s : State) : Host.Outcome State Fault Refusal := .next (complete s (bfSetBits s))

/-- The engine's step on `BF_GET_SPAN`. -/
def execBfGetSpan (s : State) : Host.Outcome State Fault Refusal := .next (complete s (bfGetSpan s))

/-- The engine's step on `BF_SET_SPAN`. -/
def execBfSetSpan (s : State) : Host.Outcome State Fault Refusal := .next (complete s (bfSetSpan s))

end Sys2Proof.Machine
end

