-- ==== Sys2Proof/Machine/CarryAdder.lean ====
section
/-! DEFINITION. The arbitrary_base_carry_propagator: the carry step (42_carry_adder.md R125) and its one command,
`ADD_ASSIGN` (R127, R128). -/

namespace Sys2Proof.Machine

/-- `CarryStep` (42_carry_adder.md R125): the digit written back and the carry out. -/
def carryStep (x y cin b : Nat) : Nat × Nat :=
  let sum := cin + x + y
  if b ≤ sum then (sum - b, 1) else (sum, 0)

/-- Digit `i` of an operand as the loop of `ADD_ASSIGN` reads it: 0 from `digitCount` up (42_carry_adder.md R127). -/
def Slot.addend (sl : Slot) (i : Nat) : Nat := if i < sl.digitCount then sl.digit i else 0

/-- The loop of `ADD_ASSIGN` after its first `n` rounds (42_carry_adder.md R127): the destination buffer and the carry.
The operands' digits `xs` and `ys` are those of the pre-state. -/
def addLoop (cap bpd b : Nat) (xs ys : Nat → Nat) (m : Memory) : Nat → Memory × Nat
  | 0 => (m, 0)
  | i + 1 =>
    let r := addLoop cap bpd b xs ys m i
    let d := carryStep (xs i) (ys i) r.2 b
    (digitWrite r.1 cap bpd i d.1, d.2)

/-- The grown destination `g` after the loop over `n` digits and the final carry (42_carry_adder.md R127, R128). -/
def addInto (g : Slot) (xs ys : Nat → Nat) (n : Nat) : Slot :=
  let r := addLoop g.capacityBytes g.bpd g.base xs ys g.buf n
  if r.2 = 1 then { g with buf := digitWrite r.1 g.capacityBytes g.bpd n 1, digitCount := n + 1 }
  else { g with buf := r.1, digitCount := n }

/-- The destination `d` after `right` is added to it, or the growth's error (42_carry_adder.md R127). Both operands are
read from the pre-state, so the same slot may be both (R130). -/
def addSlots (maxBytes : Nat) (d right : Slot) : Except ErrCode Slot :=
  let n := max d.digitCount right.digitCount
  match ensureCapacity maxBytes d (n + 1) with
  | .error e => .error e
  | .ok g => .ok (addInto g d.addend right.addend n)

/-- `ADD_ASSIGN` (42_carry_adder.md R127). Both slot indices are checked before both slot states (30_encoding.md R77,
60_exceptions.md R142). -/
def addAssign (a b : Nat) (s : State) : CmdOutcome :=
  needSlot s a <| needSlot s b <| needState s a .live fun d => needState s b .live fun right =>
    if d.base ≠ right.base then .error .baseMismatch
    else
      match addSlots s.params.maxCapacityBytes d right with
      | .error e => .error e
      | .ok sum => .ok (s.setSlot a sum)

/-- The engine's step on `ADD_ASSIGN`. -/
def execAddAssign (a b : Nat) (s : State) : Host.Outcome State Fault Refusal := .next (complete s (addAssign a b s))

end Sys2Proof.Machine
end

