-- ==== Sys2Proof/Machine/PackedNumber.lean ====
section
/-! DEFINITION. The eight commands of the packed-digit store (41_packed_number.md R114 to R121). Each command's checks
and effect stand in its own definition; `complete` is the engine's end of it (30_encoding.md R75). -/

namespace Sys2Proof.Machine

/-- The LIVE slot that `CONSTRUCT` makes of `x` in base `b`, before its capacity is checked (41_packed_number.md R114).
The loop `while c · 8 < p · n` is `while c < ceil(p · n / 8)`, the loop of R110. -/
def builtSlot (x b : Nat) : Slot :=
  let p := minBitsNeeded (b - 1)
  let d := digitsOf x b
  let c := growCapacity (ceilBytes (p * d.length)) (ceilBytes p)
  { state := .live, base := b, bpd := p, digitCount := d.length, capacityBytes := c, buf := writeDigits [] c p 0 d }

/-- `CONSTRUCT` (41_packed_number.md R114). -/
def construct (a : Nat) (s : State) : CmdOutcome :=
  slotOperand s a .free fun _ =>
    if operand1 s < Config.baseMin ∨ Config.baseMax < operand1 s then .error .invalidBase
    else
      let sl := builtSlot (operand0 s) (operand1 s)
      if s.params.maxCapacityBytes < sl.capacityBytes then .error .allocationFailure else .ok (s.setSlot a sl)

/-- `RELEASE` (41_packed_number.md R115). -/
def release (a : Nat) (s : State) : CmdOutcome :=
  slotOperand s a .live fun _ => .ok (s.setSlot a Slot.free)

/-- `DIGIT_AT` (41_packed_number.md R116). -/
def digitAt (a : Nat) (s : State) : CmdOutcome :=
  slotOperand s a .live fun sl =>
    if sl.digitCount ≤ operand0 s then .fault .index else .okValue s (sl.digit (operand0 s))

/-- A slot after digit `i` is written: the buffer, then `digitCount` recomputed (41_packed_number.md R117). -/
def Slot.withDigit (sl : Slot) (i v : Nat) : Slot :=
  let m := digitWrite sl.buf sl.capacityBytes sl.bpd i v
  { sl with buf := m, digitCount := significantDigits m sl.capacityBytes sl.bpd sl.capDigits }

/-- `SET_DIGIT_AT` (41_packed_number.md R117). -/
def setDigitAt (a : Nat) (s : State) : CmdOutcome :=
  slotOperand s a .live fun sl =>
    if sl.capDigits ≤ operand0 s then .fault .index
    else if sl.base ≤ operand1 s then .fault .valueTooWide
    else .ok (s.setSlot a (sl.withDigit (operand0 s) (operand1 s)))

/-- `GET_BASE` (41_packed_number.md R118). -/
def getBase (a : Nat) (s : State) : CmdOutcome := slotOperand s a .live fun sl => .okValue s sl.base

/-- `GET_BPD` (41_packed_number.md R119). -/
def getBpd (a : Nat) (s : State) : CmdOutcome := slotOperand s a .live fun sl => .okValue s sl.bpd

/-- `GET_DIGIT_COUNT` (41_packed_number.md R120). -/
def getDigitCount (a : Nat) (s : State) : CmdOutcome := slotOperand s a .live fun sl => .okValue s sl.digitCount

/-- `GET_CAPACITY` (41_packed_number.md R121). -/
def getCapacity (a : Nat) (s : State) : CmdOutcome := slotOperand s a .live fun sl => .okValue s sl.capacityBytes

/-- The engine's step on `CONSTRUCT`. -/
def execConstruct (a : Nat) (s : State) : Host.Outcome State Fault Refusal := .next (complete s (construct a s))

/-- The engine's step on `RELEASE`. -/
def execRelease (a : Nat) (s : State) : Host.Outcome State Fault Refusal := .next (complete s (release a s))

/-- The engine's step on `DIGIT_AT`. -/
def execDigitAt (a : Nat) (s : State) : Host.Outcome State Fault Refusal := .next (complete s (digitAt a s))

/-- The engine's step on `SET_DIGIT_AT`. -/
def execSetDigitAt (a : Nat) (s : State) : Host.Outcome State Fault Refusal := .next (complete s (setDigitAt a s))

/-- The engine's step on `GET_BASE`. -/
def execGetBase (a : Nat) (s : State) : Host.Outcome State Fault Refusal := .next (complete s (getBase a s))

/-- The engine's step on `GET_BPD`. -/
def execGetBpd (a : Nat) (s : State) : Host.Outcome State Fault Refusal := .next (complete s (getBpd a s))

/-- The engine's step on `GET_DIGIT_COUNT`. -/
def execGetDigitCount (a : Nat) (s : State) : Host.Outcome State Fault Refusal :=
  .next (complete s (getDigitCount a s))

/-- The engine's step on `GET_CAPACITY`. -/
def execGetCapacity (a : Nat) (s : State) : Host.Outcome State Fault Refusal := .next (complete s (getCapacity a s))

end Sys2Proof.Machine
end

