-- ==== Sys2Proof/Machine/Dispatch.lean ====
section
/-! DEFINITION. The opcode map (30_encoding.md R78): the engine's step on each command, run on the latched operands. -/

namespace Sys2Proof.Machine

def exec (i : Instr) (s : State) : Host.Outcome State Fault Refusal :=
  match i with
  | .bfSetLen => Sys2Proof.Machine.execBfSetLen s
  | .bfGetLen => Sys2Proof.Machine.execBfGetLen s
  | .bfWriteByte => Sys2Proof.Machine.execBfWriteByte s
  | .bfReadByte => Sys2Proof.Machine.execBfReadByte s
  | .bfGetBits => Sys2Proof.Machine.execBfGetBits s
  | .bfSetBits => Sys2Proof.Machine.execBfSetBits s
  | .bfGetSpan => Sys2Proof.Machine.execBfGetSpan s
  | .bfSetSpan => Sys2Proof.Machine.execBfSetSpan s
  | .construct a => Sys2Proof.Machine.execConstruct a s
  | .release a => Sys2Proof.Machine.execRelease a s
  | .digitAt a => Sys2Proof.Machine.execDigitAt a s
  | .setDigitAt a => Sys2Proof.Machine.execSetDigitAt a s
  | .getBase a => Sys2Proof.Machine.execGetBase a s
  | .getBpd a => Sys2Proof.Machine.execGetBpd a s
  | .getDigitCount a => Sys2Proof.Machine.execGetDigitCount a s
  | .getCapacity a => Sys2Proof.Machine.execGetCapacity a s
  | .addAssign a b => Sys2Proof.Machine.execAddAssign a b s

end Sys2Proof.Machine
end

