-- ==== Sys2Proof/Machine/Window.lean ====
section
/-! DEFINITION. The host register window: its layout (10_state.md R15), the accesses it admits (20_memory.md R46 to
R49), and the issue of a command by a write to `CMD` (30_encoding.md R74). -/

namespace Sys2Proof.Machine

/-- The registers of the window (10_state.md R15). -/
inductive WindowReg where
  /-- Offset 0x00. -/
  | cmd
  /-- Offset 0x08. -/
  | arg0
  /-- Offset 0x10. -/
  | arg1
  /-- Offset 0x18. -/
  | arg2
  /-- Offset 0x20. -/
  | result
  /-- Offset 0x28. -/
  | status
  /-- Offsets 0x30 to 0x3F: reads 0, writes ignored. -/
  | reserved
deriving DecidableEq, Repr

/-- The register at an offset of the window (10_state.md R15). -/
def windowReg (off : Nat) : WindowReg :=
  match off / 8 with
  | 0 => .cmd
  | 1 => .arg0
  | 2 => .arg1
  | 3 => .arg2
  | 4 => .result
  | 5 => .status
  | _ => .reserved

/-- The size of the window in bytes (20_memory.md R46). -/
def windowBytes : Nat := 64

/-- A host access: outside the window it is no access to the block (20_memory.md R46, log 6); inside, only an aligned
64-bit access has a meaning (R47, log 7). -/
def windowAccess (s : State) (addr bytes : Nat) (k : WindowReg → State) : Host.Outcome State Fault Refusal :=
  if addr < s.params.regBase ∨ s.params.regBase + windowBytes ≤ addr then .fault .outsideWindow
  else if bytes ≠ 8 then .refused .accessWidth
  else if (addr - s.params.regBase) % 8 ≠ 0 then .refused .accessAlignment
  else .next (k (windowReg (addr - s.params.regBase)))

/-- A read of this register now is a draw: `RESULT` or `STATUS` while `BUSY = 1` (10_state.md R17, R22). -/
def readDraws (s : State) (r : WindowReg) : Bool := s.status.busy && (r == .result || r == .status)

/-- The value a host read of a register returns (10_state.md R15 to R24). While `BUSY = 1`, `RESULT` and the `ERR`
field are free values (R17, R22); the other fields of `STATUS` read exactly. -/
def windowValue (s : State) : WindowReg → Word
  | .cmd => s.cmd
  | .arg0 => s.arg0
  | .arg1 => s.arg1
  | .arg2 => s.arg2
  | .result => if readDraws s .result then Config.freeResult s.draws else s.result
  | .status =>
    if readDraws s .status then Status.word { s.status with err := Config.freeErr s.draws } else s.status.word
  | .reserved => 0

/-- A host read: the value goes to the host; the block does not change (20_memory.md R48). -/
def hostReadReg (s : State) (r : WindowReg) : State :=
  { s with
    observed := s.observed ++ [windowValue s r]
    draws := if readDraws s r then s.draws + 1 else s.draws }

/-- `HostWriteCMD` (30_encoding.md R74): dropped while faulted, a fault while busy, else the command is issued. -/
def hostWriteCmd (s : State) (v : Word) : State :=
  if s.status.fault then s
  else if s.status.busy then s.cmdWhileBusy
  else
    { s with
      cmd := v
      latch := { word := v, a0 := s.arg0, a1 := s.arg1, a2 := s.arg2 }
      status := s.status.issue }

/-- A host write of a register (20_memory.md R48): `RESULT`, `STATUS` and the reserved offsets ignore it. -/
def hostWriteReg (s : State) (v : Word) : WindowReg → State
  | .cmd => hostWriteCmd s v
  | .arg0 => { s with arg0 := v }
  | .arg1 => { s with arg1 := v }
  | .arg2 => { s with arg2 := v }
  | .result => s
  | .status => s
  | .reserved => s

/-- One atomic host read access (20_memory.md R49). -/
def hostRead (s : State) (addr bytes : Nat) : Host.Outcome State Fault Refusal :=
  windowAccess s addr bytes (hostReadReg s)

/-- One atomic host write access (20_memory.md R49). -/
def hostWrite (s : State) (addr bytes : Nat) (v : Word) : Host.Outcome State Fault Refusal :=
  windowAccess s addr bytes (hostWriteReg s v)

end Sys2Proof.Machine
end

