-- ==== Sys2Proof/Machine/Engine.lean ====
section
/-! DEFINITION. One move of one agent: the engine's step (30_encoding.md R75 to R77), the host's accesses and reset. -/

namespace Sys2Proof.Machine

/-- `Execute` and completion (30_encoding.md R75, R77): the latched word is decoded and its command run; an illegal
value faults with `ILLEGAL_COMMAND` and nothing else changes (R76). -/
def engineStep (s : State) : Host.Outcome State Fault Refusal :=
  match decode s.latch.word with
  | .ok i => exec i s
  | .error _ => .next (s.takeFault .illegalCommand)

/-- The engine's turn: its step is enabled exactly while `BUSY = 1` (30_encoding.md R75); with no command pending the
turn changes nothing (60_exceptions.md R152, log 2). -/
def engineTurn (s : State) : Host.Outcome State Fault Refusal :=
  if s.status.busy then engineStep s else .next s

/-- One agent's move. -/
def runEvent (s : State) : Event → Host.Outcome State Fault Refusal
  | .engine => engineTurn s
  | .read addr bytes => hostRead s addr bytes
  | .write addr bytes v => hostWrite s addr bytes v
  | .reset => .next s.hostReset
  | .secondHost => .refused .secondHost

/-- The next move: the first of the schedule, or, when the schedule is empty, the engine's turn, so that a pending
command always completes (30_encoding.md R75, weak fairness; log 2). -/
def nextMove (s : State) : Host.Outcome State Fault Refusal :=
  match s.schedule with
  | [] => engineTurn s
  | e :: rest => runEvent { s with schedule := rest } e

/-- The state in which `v` is the pending command and the engine moves next: what an accepted `CMD` write of `v` leaves
(30_encoding.md R74), with the engine's turn put at the head of the schedule (log 14). -/
def pendingCommand (s : State) (v : Word) : State :=
  { s with
    cmd := v
    latch := { word := v, a0 := s.arg0, a1 := s.arg1, a2 := s.arg2 }
    status := s.status.issue
    schedule := .engine :: s.schedule }

end Sys2Proof.Machine
end

