-- ==== Sys2Proof/Machine/Step.lean ====
section
/-! DEFINITION. One step of the machine, and the state in which a given command is the next one to run. -/

namespace Sys2Proof.Machine

/-- One step: one move of one agent. -/
def step (s : State) : Host.Outcome State Fault Refusal := nextMove s

/-- `s` with the command of the bits `w` latched as the pending command and the engine's turn next (log 14). -/
def State.withFetchWord (s : State) (nbits w : Nat) : State := pendingCommand s (tableWord nbits w)

end Sys2Proof.Machine
end

