-- ==== Sys2Proof/Safety.lean ====
section
/-! DEFINITION. What claims are stated in: the number a buffer and a slot stand for (20_memory.md R51, 41_packed_number.md
R113), the legal commands (30_encoding.md R76), the invariants of 10_state.md R36 to R40, and a run without a fault
(60_exceptions.md R141). -/

namespace Sys2Proof.Machine

/-! ## Numbers -/

/-- `N(buf, len)` (20_memory.md R51): the first `len` bytes read as one big-endian unsigned integer. -/
def bufferNumber (m : Memory) : Nat → Nat
  | 0 => 0
  | n + 1 => bufferNumber m n * 2 ^ 8 + (m.read n).toNat

/-- `Σ_{i < n} f(i) · b^i`. -/
def digitsValue (b : Nat) (f : Nat → Nat) : Nat → Nat
  | 0 => 0
  | n + 1 => digitsValue b f n + f n * b ^ n

/-- `value(s)` (41_packed_number.md R113). -/
def Slot.value (sl : Slot) : Nat := digitsValue sl.base sl.digit sl.digitCount

/-! ## Legal commands -/

/-- A legal command (30_encoding.md R76): bits 63:32 are 0, `OP` is an opcode, `RSV` is 0, and the slot fields the
opcode's format does not use are 0. -/
def LegalCommand (v : Word) : Prop :=
  fieldHigh v = 0 ∧ fieldRsv v = 0 ∧
    ((fieldOp v ∈ [0x01, 0x02, 0x03, 0x04, 0x05, 0x06, 0x07, 0x08] ∧ fieldA v = 0 ∧ fieldB v = 0) ∨
      (fieldOp v ∈ [0x10, 0x11, 0x12, 0x13, 0x14, 0x15, 0x16, 0x17] ∧ fieldB v = 0) ∨
      fieldOp v = 0x20)

/-! ## How a command ends -/

/-- `s` with `ERR <- 0` and `BUSY <- 0`: what a command that ends in Ok does to `STATUS` (30_encoding.md R75). -/
def State.afterOk (s : State) : State := { s with status := { s.status with busy := false, err := 0 } }

/-- `s` with `ERR <- code` and `BUSY <- 0`: a command that ends in Error (30_encoding.md R75). -/
def State.afterError (s : State) (code : BitVec 4) : State :=
  { s with status := { s.status with busy := false, err := code } }

/-- `s` with `FAULT <- 1`, `FAULT_CAUSE <- cause` and `BUSY <- 0`: fault entry (60_exceptions.md R139). -/
def State.afterFault (s : State) (c : FaultCause) : State :=
  { s with status := { s.status with busy := false, fault := true, cause := c } }

/-! ## Invariants -/

/-- The invariants of a LIVE slot (10_state.md R30, R31, R33, R34, R36 to R40). -/
structure Slot.LiveInv (maxBytes : Nat) (sl : Slot) : Prop where
  /-- R30. -/
  base_range : Config.baseMin ≤ sl.base ∧ sl.base ≤ Config.baseMax
  /-- R31: the least width that holds every digit of the base. -/
  bpd_least : sl.base - 1 < 2 ^ sl.bpd ∧ ∀ p, sl.base - 1 < 2 ^ p → sl.bpd ≤ p
  /-- R36. -/
  room : sl.bpd * sl.digitCount ≤ 8 * sl.capacityBytes
  /-- R37. -/
  digits_lt : ∀ i, i < sl.digitCount → sl.digit i < sl.base
  /-- R38. -/
  count_pos : 1 ≤ sl.digitCount
  /-- R38. -/
  top_nonzero : 1 < sl.digitCount → sl.digit (sl.digitCount - 1) ≠ 0
  /-- R39. -/
  clear_above : ∀ k, sl.bpd * sl.digitCount ≤ k → k < 8 * sl.capacityBytes → bitAt sl.buf sl.capacityBytes k = false
  /-- R40. -/
  capacity_doubled : ∃ k, sl.capacityBytes = ceilBytes sl.bpd * 2 ^ k
  /-- R33, R40. -/
  capacity_le : sl.capacityBytes ≤ maxBytes
  /-- The buffer is in canonical form (log 11). -/
  canonical : sl.buf.wf
  /-- R34: the buffer has `capacityBytes` bytes. -/
  inside : sl.buf.Below sl.capacityBytes

/-- A slot is FREE with the values of 10_state.md R35, or LIVE with the invariants of R36 to R40. -/
structure Slot.Inv (maxBytes : Nat) (sl : Slot) : Prop where
  /-- R35. -/
  free_values : sl.state = .free → sl = Slot.free
  /-- R36 to R40. -/
  live_inv : sl.state = .live → sl.LiveInv maxBytes

/-- `STATUS` is one that a run can reach (10_state.md R19 to R23, 60_exceptions.md R136, R138). -/
structure Status.Inv (t : Status) : Prop where
  /-- R19: the cause is NONE exactly while `FAULT = 0`. -/
  cause_none : t.cause = .none ↔ t.fault = false
  /-- 60_exceptions.md R141: no command is pending while faulted. -/
  fault_idle : t.fault = true → t.busy = false
  /-- 60_exceptions.md R136: `ERR` codes 4 to 15 are never produced; only a `CMD_WHILE_BUSY` fault draws `ERR`. -/
  err_code : t.cause ≠ .cmdWhileBusy → t.err.toNat ≤ 3

/-- The invariant of the block. -/
structure State.Inv (s : State) : Prop where
  /-- 00_scope.md R7. -/
  params_valid : s.params.Valid
  /-- 10_state.md R28. -/
  slot_count : s.slots.length = s.params.numSlots
  /-- 10_state.md R35 to R40. -/
  slots_inv : ∀ sl ∈ s.slots, sl.Inv s.params.maxCapacityBytes
  /-- The scratch buffer is in canonical form (log 11). -/
  bf_canonical : s.bf.wf
  /-- 10_state.md R26. -/
  bf_inside : s.bf.Below s.params.bfBufBytes
  /-- 10_state.md R27. -/
  bfLen_le : s.bfLen ≤ s.params.bfBufBytes
  /-- 10_state.md R19 to R23. -/
  status_inv : s.status.Inv
  /-- 10_state.md R25: while a command is pending, `CMD` shows the latched word. -/
  cmd_latched : s.status.busy = true → s.cmd = s.latch.word

/-! ## Safe runs -/

/-- The block has not faulted: "a claim about a host program takes 'no fault' as a premise" (60_exceptions.md R141). -/
abbrev State.Unfaulted (s : State) : Prop := s.status.fault = false

/-- The block accepts a `CMD` write (10_state.md R18): neither faulted nor busy. -/
abbrev State.Ready (s : State) : Prop := s.status.fault = false ∧ s.status.busy = false

end Sys2Proof.Machine
end

