-- ==== Sys2Proof/Certificates/Slice0/Obligations.lean ====
section
/-! DEFINITION. The statements for the provers, in the order of the spec: encoding, the agents and the window, reset and
the invariant, the whole-machine rules, the bitfield commands, the packed-digit store, the carry propagator. -/

open Sys2Proof Sys2Proof.Machine

namespace Sys2Proof.Claims

/-! ## Words the statements use -/

/-- A host read at offset `off` of the window gives `v` and changes nothing of the block. That the value read is added to
`observed` is the model's choice (log 3). -/
def ReadGives (s : State) (off : Nat) (v : Word) : Prop :=
  ∀ rest, s.schedule = .read (s.params.regBase + off) 8 :: rest →
    step s = .next { s with schedule := rest, observed := s.observed ++ [v] }

/-- A host write of `v` at offset `off` of the window leaves `t`, less the move itself. -/
def WriteLeaves (s : State) (off : Nat) (v : Word) (t : State) : Prop :=
  ∀ rest, s.schedule = .write (s.params.regBase + off) 8 v :: rest → step s = .next { t with schedule := rest }

/-- The commands that write bytes of `BF` (40_bitfield.md R100, R103, R105). -/
def writesBf : Instr → Bool
  | .bfWriteByte | .bfSetBits | .bfSetSpan => true
  | _ => false

/-- The one slot that a command may write (41_packed_number.md R114, R115, R117; 42_carry_adder.md R127). -/
def writesSlot : Instr → Option Nat
  | .construct a | .release a | .setDigitAt a | .addAssign a _ => some a
  | _ => none

/-- The commands that return a value (30_encoding.md R80, last column). -/
def returnsValue : Instr → Bool
  | .bfGetLen | .bfReadByte | .bfGetBits | .bfGetSpan => true
  | .digitAt _ | .getBase _ | .getBpd _ | .getDigitCount _ | .getCapacity _ => true
  | _ => false

/-- How many of `ARG[0]`, `ARG[1]`, `ARG[2]` a command reads, from `ARG[0]` up (30_encoding.md R80). -/
def operandsRead : Instr → Nat
  | .bfSetBits | .bfSetSpan => 3
  | .bfWriteByte | .bfGetBits | .bfGetSpan | .construct _ | .setDigitAt _ => 2
  | .bfSetLen | .bfReadByte | .digitAt _ => 1
  | .bfGetLen | .release _ | .getBase _ | .getBpd _ | .getDigitCount _ | .getCapacity _ | .addAssign _ _ => 0

/-- The slot operands of a command, in the order of their checks (30_encoding.md R77). -/
def slotOperands : Instr → List Nat
  | .construct a | .release a | .digitAt a | .setDigitAt a => [a]
  | .getBase a | .getBpd a | .getDigitCount a | .getCapacity a => [a]
  | .addAssign a b => [a, b]
  | _ => []

/-- The state the first slot operand must be in (60_exceptions.md R138). -/
def slotStateNeeded : Instr → SlotState
  | .construct _ => .free
  | _ => .live

/-- The chunked `getBits` of the source (40_bitfield.md R91), over at most `fuel` chunks. -/
def chunkedGet (m : Memory) (len stop : Nat) : Nat → Nat → Nat → Nat → Nat
  | 0, _, _, acc => acc
  | fuel + 1, k, consumed, acc =>
    if k < stop then
      let w := min (8 - k % 8) (stop - k)
      let piece := (m.read (len - 1 - k / 8)).toNat / 2 ^ (k % 8) % 2 ^ w
      chunkedGet m len stop fuel (k + w) (consumed + w) (acc ||| piece * 2 ^ consumed)
    else acc

/-- The chunked `setBits` of the source (40_bitfield.md R94), over at most `fuel` chunks. -/
def chunkedSet (len stop v : Nat) : Nat → Nat → Nat → Memory → Memory
  | 0, _, _, m => m
  | fuel + 1, k, consumed, m =>
    if k < stop then
      let j := len - 1 - k / 8
      let w := min (8 - k % 8) (stop - k)
      let mask : Byte := BitVec.ofNat 8 ((2 ^ w - 1) * 2 ^ (k % 8))
      let piece : Byte := BitVec.ofNat 8 (v / 2 ^ consumed % 2 ^ w * 2 ^ (k % 8))
      chunkedSet len stop v fuel (k + w) (consumed + w) (m.write j ((m.read j &&& ~~~mask) ||| piece))
    else m

end Sys2Proof.Claims

open Sys2Proof.Claims

/-! ## Encoding and decode -/

/-- 30_encoding.md R72, R73, R78: decoding an encoded well-formed command gives it back, all seventeen of them with
every slot index. -/
def Obligations.DecodeOfEncodeIsTheCommand : Prop :=
  ∀ i : Instr, i.WellFormed → decode (encode i) = .ok i

/-- 30_encoding.md R71, R76: a word decodes to at most the command whose word it is, so that no bit is dropped. -/
def Obligations.DecodedWordIsTheCommandsWord : Prop :=
  ∀ (v : Word) (i : Instr), decode v = .ok i → i.WellFormed ∧ encode i = v

/-- 30_encoding.md R76: the decoder accepts exactly the legal commands, and the engine faults on every other latched
value with `ILLEGAL_COMMAND` and nothing else. -/
def Obligations.ExactlyLegalCommandsDecode : Prop :=
  (∀ v : Word, (∃ i, decode v = .ok i) ↔ LegalCommand v) ∧
    ∀ (s : State) (rest : List Event), s.status.busy = true → ¬LegalCommand s.latch.word →
      s.schedule = .engine :: rest →
        step s = .next (State.afterFault { s with schedule := rest } .illegalCommand)

/-- spec/opcode_table.json: a value decodes exactly where it selects a row (`w &&& mask = match`), and the row it selects
is its command's. -/
def Obligations.DecodeFollowsTheOpcodeTable : Prop :=
  (∀ v : Word, (∃ i, decode v = .ok i) ↔ ∃ i, v &&& (tableRow i).2 = (tableRow i).1) ∧
    ∀ (v : Word) (i : Instr), decode v = .ok i → v &&& (tableRow i).2 = (tableRow i).1

/-- 30_encoding.md R79: every opcode outside the opcode map faults with `ILLEGAL_COMMAND`. -/
def Obligations.OtherOpcodesAreIllegal : Prop :=
  ∀ (s : State) (rest : List Event), s.status.busy = true → s.schedule = .engine :: rest →
    (fieldOp s.latch.word = 0 ∨ (0x09 ≤ fieldOp s.latch.word ∧ fieldOp s.latch.word ≤ 0x0F) ∨
      (0x18 ≤ fieldOp s.latch.word ∧ fieldOp s.latch.word ≤ 0x1F) ∨
      (0x21 ≤ fieldOp s.latch.word ∧ fieldOp s.latch.word ≤ 0xFF)) →
    step s = .next (State.afterFault { s with schedule := rest } .illegalCommand)

/-- 30_encoding.md R87: the worked encodings, and the worked illegal words. -/
def Obligations.WorkedEncodingsDecode : Prop :=
  decode 0x00000001 = .ok .bfSetLen ∧ decode 0x00000005 = .ok .bfGetBits ∧ decode 0x00000008 = .ok .bfSetSpan ∧
    decode 0x00000010 = .ok (.construct 0) ∧ decode 0x00000110 = .ok (.construct 1) ∧
    decode 0x00000312 = .ok (.digitAt 3) ∧ decode 0x00000016 = .ok (.getDigitCount 0) ∧
    decode 0x00010020 = .ok (.addAssign 0 1) ∧ decode 0x00020220 = .ok (.addAssign 2 2) ∧
    decode 0x00000000 = .error .unknownOpcode ∧ decode 0x0000000100000110 = .error .highBits ∧
    decode 0x00010010 = .error .unusedSlotField ∧ decode 0x01000005 = .error .reservedField ∧
    decode 0x00000021 = .error .unknownOpcode

/-! ## The engine, the host and the register window -/

/-- 30_encoding.md R75, R77: on the engine's turn, with a pending word that decodes to `i`, the step is `exec i`; the
move itself leaves the schedule. That the engine moves when no move is scheduled is the model's choice (log 2). -/
def Obligations.StepRunsTheDecodedCommand : Prop :=
  ∀ (s : State) (i : Instr), s.status.busy = true → decode s.latch.word = .ok i →
    (∀ rest, s.schedule = .engine :: rest → step s = exec i { s with schedule := rest }) ∧
      (s.schedule = [] → step s = exec i s)

/-- 30_encoding.md R75, 10_state.md R20: the engine's turn completes the pending command, whatever it is, and clears
`BUSY`. That the engine moves when no move is scheduled is the model's choice (log 2). -/
def Obligations.EngineTurnClearsBusy : Prop :=
  ∀ (s : State) (rest : List Event), s.status.busy = true → (s.schedule = [] ∨ s.schedule = .engine :: rest) →
    ∃ t, step s = .next t ∧ t.status.busy = false

/-- 30_encoding.md R74: a write to `CMD` is dropped while faulted, faults with `CMD_WHILE_BUSY` while busy, and is issued
otherwise. -/
def Obligations.CmdWriteIsDroppedFaultsOrIssues : Prop :=
  ∀ (s : State) (v : Word) (rest : List Event), s.schedule = .write s.params.regBase 8 v :: rest →
    (s.status.fault = true → step s = .next { s with schedule := rest }) ∧
      (s.status.fault = false → s.status.busy = true →
        ∃ t, step s = .next t ∧ t.status.fault = true ∧ t.status.cause = .cmdWhileBusy ∧ t.status.busy = false) ∧
      (s.status.fault = false → s.status.busy = false →
        step s = .next { s with
          schedule := rest
          cmd := v
          latch := { word := v, a0 := s.arg0, a1 := s.arg1, a2 := s.arg2 }
          status := { s.status with busy := true } })

/-- 60_exceptions.md R140: what `CMD_WHILE_BUSY` leaves. `RESULT` and `ERR` are the free values of the draw, whatever
they are; `CMD`, the latch, the operand registers and the reads made so far are kept; the written value is gone. The
slots, `BF` and `BF_LEN` are not spoken of: the rule leaves them unspecified. -/
def Obligations.CmdWhileBusyDrawsResultAndErr : Prop :=
  ∀ (s : State) (v : Word) (rest : List Event), s.schedule = .write s.params.regBase 8 v :: rest →
    s.status.fault = false → s.status.busy = true →
      ∃ t, step s = .next t ∧
        t.status = { busy := false, fault := true, err := Config.freeErr s.draws, cause := .cmdWhileBusy } ∧
        t = { s with
          schedule := rest
          status := t.status
          result := Config.freeResult s.draws
          draws := s.draws + 1
          bf := t.bf
          bfLen := t.bfLen
          slots := t.slots }

/-- 10_state.md R16: the host may write an operand register at any time, busy or faulted or neither, and only that
register changes. -/
def Obligations.OperandWritesAlwaysStore : Prop :=
  ∀ (s : State) (v : Word), WriteLeaves s 0x08 v { s with arg0 := v } ∧ WriteLeaves s 0x10 v { s with arg1 := v } ∧
    WriteLeaves s 0x18 v { s with arg2 := v }

/-- 10_state.md R15: while idle, a read at each offset of the window gives the register there. -/
def Obligations.IdleReadsGiveTheRegisters : Prop :=
  ∀ s : State, s.status.busy = false →
    ReadGives s 0x00 s.cmd ∧ ReadGives s 0x08 s.arg0 ∧ ReadGives s 0x10 s.arg1 ∧ ReadGives s 0x18 s.arg2 ∧
      ReadGives s 0x20 s.result ∧ ReadGives s 0x28 s.status.word

/-- 70_reset_and_hazards.md R157, 10_state.md R17, R22: while busy, a read of `RESULT` gives a free value, and a read of
`STATUS` gives a free `ERR` field and every other field exactly; `CMD` and the operand registers read exactly. Nothing
is said of the free values themselves. -/
def Obligations.BusyReadsDrawResultAndErr : Prop :=
  ∀ s : State, s.status.busy = true →
    (∀ rest, s.schedule = .read (s.params.regBase + 0x20) 8 :: rest →
      step s = .next { s with
        schedule := rest, observed := s.observed ++ [Config.freeResult s.draws], draws := s.draws + 1 }) ∧
    (∀ rest, s.schedule = .read (s.params.regBase + 0x28) 8 :: rest →
      ∃ v : Word, step s = .next { s with schedule := rest, observed := s.observed ++ [v], draws := s.draws + 1 } ∧
        v.getLsbD 0 = true ∧ v.getLsbD 1 = s.status.fault ∧ v.extractLsb' 2 2 = 0 ∧
        v.extractLsb' 4 4 = Config.freeErr s.draws ∧ v.extractLsb' 8 8 = s.status.cause.code ∧
        v.extractLsb' 16 48 = 0) ∧
    ReadGives s 0x00 s.cmd ∧ ReadGives s 0x08 s.arg0 ∧ ReadGives s 0x10 s.arg1 ∧ ReadGives s 0x18 s.arg2

/-- 10_state.md R19, 60_exceptions.md R136, R138: the layout of `STATUS` and its codes. -/
def Obligations.StatusWordLayout : Prop :=
  (∀ t : Status, t.word.getLsbD 0 = t.busy ∧ t.word.getLsbD 1 = t.fault ∧ t.word.extractLsb' 2 2 = 0 ∧
      t.word.extractLsb' 4 4 = t.err ∧ t.word.extractLsb' 8 8 = t.cause.code ∧ t.word.extractLsb' 16 48 = 0) ∧
    (FaultCause.none.code = 0 ∧ FaultCause.illegalCommand.code = 1 ∧ FaultCause.badSlot.code = 2 ∧
      FaultCause.slotState.code = 3 ∧ FaultCause.range.code = 4 ∧ FaultCause.valueTooWide.code = 5 ∧
      FaultCause.index.code = 6 ∧ FaultCause.cmdWhileBusy.code = 7) ∧
    (ErrCode.invalidBase.code = 1 ∧ ErrCode.baseMismatch.code = 2 ∧ ErrCode.allocationFailure.code = 3)

/-- 10_state.md R24: every reserved bit of `STATUS` reads 0; every reserved offset of the window reads 0, busy or not,
and a write to it is ignored. -/
def Obligations.ReservedBitsAndOffsetsReadZero : Prop :=
  (∀ (t : Status) (k : Nat), k = 2 ∨ k = 3 ∨ 16 ≤ k → t.word.getLsbD k = false) ∧
    ∀ (s : State) (v : Word), ReadGives s 0x30 0 ∧ ReadGives s 0x38 0 ∧ WriteLeaves s 0x30 v s ∧ WriteLeaves s 0x38 v s

/-- 20_memory.md R48: writes to `RESULT`, to `STATUS` and to the reserved offsets are ignored, reads of the reserved
offsets give 0, and a host read never has a side effect on the block: wherever it answers, only the record of reads and
the count of draws change. -/
def Obligations.ReadsHaveNoSideEffect : Prop :=
  (∀ (s : State) (v : Word), WriteLeaves s 0x20 v s ∧ WriteLeaves s 0x28 v s ∧ WriteLeaves s 0x30 v s ∧
      WriteLeaves s 0x38 v s ∧ ReadGives s 0x30 0 ∧ ReadGives s 0x38 0) ∧
    ∀ (s : State) (off : Nat) (rest : List Event), off < 64 → off % 8 = 0 →
      s.schedule = .read (s.params.regBase + off) 8 :: rest →
        ∃ v n, step s = .next { s with schedule := rest, observed := s.observed ++ [v], draws := n }

/-- 20_memory.md R47: inside the window, an access that is not 64 bits wide or not at a multiple of 8 is refused, read or
write; every other access there is a step. R47 names no refusal and orders none: that an access both of the wrong width
and misaligned is refused as `accessWidth` is the model's choice (log 7). -/
def Obligations.OnlyAlignedWordAccessesHaveMeaning : Prop :=
  ∀ (s : State) (off bytes : Nat) (v : Word) (rest : List Event), off < 64 →
    (s.schedule = .read (s.params.regBase + off) bytes :: rest ∨
      s.schedule = .write (s.params.regBase + off) bytes v :: rest) →
    (bytes ≠ 8 → step s = .refused .accessWidth) ∧
      (bytes = 8 → off % 8 ≠ 0 → step s = .refused .accessAlignment) ∧
      (bytes = 8 → off % 8 = 0 → ∃ t, step s = .next t)

/-- 20_memory.md R46 and 60_exceptions.md R150: an access that starts outside the 64-byte window is none of the block's,
and a second host is refused. That the first stops as a fault of the model is the model's choice (log 6). -/
def Obligations.ForeignAccessesStop : Prop :=
  ∀ (s : State) (addr bytes : Nat) (v : Word) (rest : List Event),
    (addr < s.params.regBase ∨ s.params.regBase + 64 ≤ addr →
      s.schedule = .read addr bytes :: rest ∨ s.schedule = .write addr bytes v :: rest →
        step s = .fault .outsideWindow) ∧
      (s.schedule = .secondHost :: rest → step s = .refused .secondHost)

/-- 20_memory.md R61, R66: a `CMD` write to a ready block shows no effect of the command; the engine's next turn then
applies all of it, run on the operands as they stood at the write. -/
def Obligations.IssuedCommandRunsOnTheLatchedOperands : Prop :=
  ∀ (s : State) (v : Word) (i : Instr) (rest : List Event), s.Ready → decode v = .ok i →
    s.schedule = .write s.params.regBase 8 v :: .engine :: rest →
      ∃ s1, step s = .next s1 ∧ s1.status.busy = true ∧
        (s1.result = s.result ∧ s1.bf = s.bf ∧ s1.bfLen = s.bfLen ∧ s1.slots = s.slots) ∧
        step s1 = exec i { s with
          schedule := rest
          cmd := v
          latch := { word := v, a0 := s.arg0, a1 := s.arg1, a2 := s.arg2 }
          status := { s.status with busy := true } }

/-- 60_exceptions.md R143: the race of a `CMD` write with the completion has both orders. If the engine moves first and
the pending command does not fault, the write is accepted as a new command; if the write comes first, it faults, and the
engine then has no step (R141). That its turn is still a step, which changes nothing but the schedule, is the model's
choice (log 2). -/
def Obligations.CmdWriteRacesWithCompletion : Prop :=
  ∀ (s : State) (v : Word) (rest : List Event), s.Unfaulted → s.status.busy = true →
    (∀ t, s.schedule = .engine :: .write s.params.regBase 8 v :: rest → step s = .next t → t.Unfaulted →
      step t = .next { t with
        schedule := rest
        cmd := v
        latch := { word := v, a0 := s.arg0, a1 := s.arg1, a2 := s.arg2 }
        status := { t.status with busy := true } }) ∧
    (s.schedule = .write s.params.regBase 8 v :: .engine :: rest →
      ∃ t, step s = .next t ∧ t.status.fault = true ∧ t.status.cause = .cmdWhileBusy ∧
        step t = .next { t with schedule := rest })

/-! ## Reset and the invariant -/

/-- 70_reset_and_hazards.md R153, R154: reset, at any time, gives every piece of the block's state its value of
10_state.md R41, abandons a pending command and clears a fault. What it leaves of the parameters and of the model's own
fields is the model's choice (log 19). -/
def Obligations.ResetRestoresEveryRegister : Prop :=
  ∀ (s : State) (rest : List Event), s.schedule = .reset :: rest →
    ∃ t, step s = .next t ∧ t.cmd = 0 ∧ t.arg0 = 0 ∧ t.arg1 = 0 ∧ t.arg2 = 0 ∧ t.result = 0 ∧
      t.status = { busy := false, fault := false, err := 0, cause := .none } ∧
      t.latch = { word := 0, a0 := 0, a1 := 0, a2 := 0 } ∧ (∀ j, t.bf.read j = 0) ∧ t.bfLen = 0 ∧
      t.slots.length = s.params.numSlots ∧
      (∀ a, a < s.params.numSlots → t.slotAt a =
        { state := .free, base := 0, bpd := 0, digitCount := 0, capacityBytes := 0, buf := [] }) ∧
      t.params = s.params ∧ t.schedule = rest ∧ t.observed = s.observed

/-- 10_state.md R41: the values of the state after reset, for every choice of the parameters, `State.reset` being one. -/
def Obligations.ResetStateHoldsTheResetTable : Prop :=
  (∃ p, p.Valid ∧ State.reset = State.resetWith p) ∧
    ∀ p : Params, (State.resetWith p).cmd = 0 ∧ (State.resetWith p).arg0 = 0 ∧ (State.resetWith p).arg1 = 0 ∧
      (State.resetWith p).arg2 = 0 ∧ (State.resetWith p).result = 0 ∧ (State.resetWith p).status.word = 0 ∧
      (State.resetWith p).latch = { word := 0, a0 := 0, a1 := 0, a2 := 0 } ∧
      (∀ j, (State.resetWith p).bf.read j = 0) ∧ (State.resetWith p).bfLen = 0 ∧
      (State.resetWith p).slots = List.replicate p.numSlots
        { state := .free, base := 0, bpd := 0, digitCount := 0, capacityBytes := 0, buf := [] }

/-- The invariant of the block holds after reset, for every valid choice of the parameters. -/
def Obligations.ResetStateMeetsTheInvariant : Prop :=
  State.reset.Inv ∧ ∀ p : Params, p.Valid → (State.resetWith p).Inv

/-- 10_state.md R19 to R40: every step of every agent keeps the invariant: the parameters' bounds, the slots' R35 to
R40, `BF_LEN ≤ BF_BUF_BYTES`, the canonical form of every buffer, and a `STATUS` a run can reach. That it holds after a
`CMD_WHILE_BUSY` fault rests on the model's choice of log 5. -/
def Obligations.EveryStepKeepsTheInvariant : Prop :=
  ∀ s t : State, s.Inv → step s = .next t → t.Inv

/-! ## Whole-machine rules -/

/-- 60_exceptions.md R135, R137, R139: every command ends in exactly one of Ok, Error and Fault. Ok changes the result,
`BF`, `BF_LEN` and the slots at most, with `ERR <- 0`; Error changes `ERR` and `BUSY` alone; Fault changes `FAULT`,
`FAULT_CAUSE` and `BUSY` alone. -/
def Obligations.EveryCommandEndsInOneOutcome : Prop :=
  ∀ (i : Instr) (s : State), ∃ t, exec i s = .next t ∧
    (t = { s.afterOk with result := t.result, bf := t.bf, bfLen := t.bfLen, slots := t.slots } ∨
      (∃ e : ErrCode, t = s.afterError e.code) ∨
      ∃ c, c ∈ [FaultCause.badSlot, .slotState, .range, .valueTooWide, .index] ∧ t = s.afterFault c)

/-- 60_exceptions.md R137: an error is not sticky and repeats: the same command on the state an error leaves gives the
same error again. -/
def Obligations.ErrorsRepeat : Prop :=
  ∀ (i : Instr) (s t : State), exec i s = .next t → s.Unfaulted → t.Unfaulted → t.status.err ≠ 0 →
    exec i { t with status := { t.status with busy := true } } = .next t

/-- 10_state.md R27, R57, 40_bitfield.md R106, 42_carry_adder.md R131: a command writes only its own unit: `BF` only by
the three storing bitfield commands, `BF_LEN` only by `BF_SET_LEN`, and of the slots only its own. -/
def Obligations.CommandsWriteOnlyTheirUnit : Prop :=
  ∀ (i : Instr) (s : State), ∃ t, exec i s = .next t ∧
    (writesBf i = false → t.bf = s.bf) ∧ (i ≠ .bfSetLen → t.bfLen = s.bfLen) ∧
      (∀ j, writesSlot i ≠ some j → t.slotAt j = s.slotAt j) ∧ t.slots.length = s.slots.length

/-- 10_state.md R17, 30_encoding.md R80: a command that returns no value leaves `RESULT`, however it ends, and a command
that returns one changes nothing but `RESULT` and `STATUS` (20_memory.md R62). -/
def Obligations.ResultIsWrittenOnlyByValueCommands : Prop :=
  ∀ (i : Instr) (s : State), ∃ t, exec i s = .next t ∧
    (returnsValue i = false → t.result = s.result) ∧
      (returnsValue i = true → t = { s with result := t.result, status := t.status })

/-- 30_encoding.md R80: a command never looks at an operand its row leaves blank: with any value in that latch field it
does the same. -/
def Obligations.BlankOperandsAreNeverRead : Prop :=
  ∀ (i : Instr) (s : State) (x : Word), ∃ t, exec i s = .next t ∧
    (operandsRead i ≤ 2 → exec i { s with latch := { s.latch with a2 := x } } =
      .next { t with latch := { s.latch with a2 := x } }) ∧
    (operandsRead i ≤ 1 → exec i { s with latch := { s.latch with a1 := x } } =
      .next { t with latch := { s.latch with a1 := x } }) ∧
    (operandsRead i = 0 → exec i { s with latch := { s.latch with a0 := x } } =
      .next { t with latch := { s.latch with a0 := x } })

/-- 70_reset_and_hazards.md R159: operand writes while a command is pending change nothing of what the command does: it
uses its latched operands. -/
def Obligations.OperandWritesNeverDisturbAPendingCommand : Prop :=
  ∀ (i : Instr) (s : State) (x y z : Word), ∃ t, exec i s = .next t ∧
    exec i { s with arg0 := x, arg1 := y, arg2 := z } = .next { t with arg0 := x, arg1 := y, arg2 := z }

/-- 20_memory.md R62, 10_state.md R43: a command's outcome rests on the latch, the scratch buffer and the slots alone:
what the host wrote or read, an earlier result and every free value drawn before leave no trace in it. -/
def Obligations.OutcomeDependsOnLatchAndUnitsAlone : Prop :=
  ∀ (i : Instr) (s u : State), u.params = s.params → u.latch = s.latch → u.bf = s.bf → u.bfLen = s.bfLen →
    u.slots = s.slots →
      ∃ s' u', exec i s = .next s' ∧ exec i u = .next u' ∧
        (u'.bf = s'.bf ∧ u'.bfLen = s'.bfLen ∧ u'.slots = s'.slots) ∧ (u.status = s.status → u'.status = s'.status) ∧
        ((u'.result = u.result ∧ s'.result = s.result) ∨ u'.result = s'.result)

/-- 10_state.md R30, R31, R33: while a slot stays LIVE over a command, its base and its bits per digit do not change and
its capacity does not shrink. -/
def Obligations.LiveSlotsKeepBaseAndNeverShrink : Prop :=
  ∀ (i : Instr) (s : State), s.Inv → ∃ t, exec i s = .next t ∧
    ∀ a, (s.slotAt a).state = .live → (t.slotAt a).state = .live →
      (t.slotAt a).base = (s.slotAt a).base ∧ (t.slotAt a).bpd = (s.slotAt a).bpd ∧
        (s.slotAt a).capacityBytes ≤ (t.slotAt a).capacityBytes

/-- 10_state.md R21, R23, 60_exceptions.md R141, R145: a faulted block is stuck until reset: any other step changes the
operand registers and the host's record at most. -/
def Obligations.FaultedBlockIsStuckUntilReset : Prop :=
  ∀ s t : State, s.status.fault = true → s.status.busy = false → s.schedule.head? ≠ some .reset →
    step s = .next t →
      t = { s with
        schedule := t.schedule, arg0 := t.arg0, arg1 := t.arg1, arg2 := t.arg2, observed := t.observed }

/-- 10_state.md R42, R44: no step changes the parameters, and a step adds at most one value to what the host has read.
That the parameters and the reads are fields of State is the model's choice (logs 1 and 3). -/
def Obligations.StepsKeepParametersAndReads : Prop :=
  ∀ s t : State, step s = .next t →
    t.params = s.params ∧ (t.observed = s.observed ∨ ∃ v, t.observed = s.observed ++ [v])

/-- 30_encoding.md R77, 60_exceptions.md R142: a slot operand that is no slot faults with `BAD_SLOT`, before any check of
a slot's state; and where every slot operand is a slot, a first one in the wrong state faults with `SLOT_STATE`. -/
def Obligations.SlotChecksComeFirst : Prop :=
  ∀ (i : Instr) (s : State),
    ((∃ a, a ∈ slotOperands i ∧ s.params.numSlots ≤ a) → exec i s = .next (s.afterFault .badSlot)) ∧
      ∀ a as, slotOperands i = a :: as → (∀ x, x ∈ slotOperands i → x < s.params.numSlots) →
        (s.slotAt a).state ≠ slotStateNeeded i → exec i s = .next (s.afterFault .slotState)

/-! ## The bitfield_accessor -/

/-- 40_bitfield.md R98: `BF_SET_LEN`. -/
def Obligations.BfSetLenSetsTheLength : Prop :=
  decode 0x00000001 = .ok .bfSetLen ∧
  ∀ s : State,
    (s.latch.a0.toNat ≤ s.params.bfBufBytes →
      exec .bfSetLen s = .next { s.afterOk with bfLen := s.latch.a0.toNat }) ∧
    (s.params.bfBufBytes < s.latch.a0.toNat → exec .bfSetLen s = .next (s.afterFault .index))

/-- 40_bitfield.md R99: `BF_GET_LEN`. -/
def Obligations.BfGetLenReturnsTheLength : Prop :=
  decode 0x00000002 = .ok .bfGetLen ∧
  ∀ s : State, exec .bfGetLen s = .next { s.afterOk with result := BitVec.ofNat 64 s.bfLen }

/-- 40_bitfield.md R100: `BF_WRITE_BYTE` stores one byte and changes no other byte and nothing else; the index is checked
before the value. -/
def Obligations.BfWriteByteStoresOneByte : Prop :=
  decode 0x00000003 = .ok .bfWriteByte ∧
  ∀ s : State, s.bf.wf →
    (s.latch.a0.toNat < s.params.bfBufBytes → s.latch.a1.toNat ≤ 255 →
      ∃ t, exec .bfWriteByte s = .next t ∧ (t.bf.read s.latch.a0.toNat).toNat = s.latch.a1.toNat ∧
        (∀ j, j ≠ s.latch.a0.toNat → t.bf.read j = s.bf.read j) ∧ t = { s.afterOk with bf := t.bf }) ∧
    (s.params.bfBufBytes ≤ s.latch.a0.toNat → exec .bfWriteByte s = .next (s.afterFault .index)) ∧
    (s.latch.a0.toNat < s.params.bfBufBytes → 255 < s.latch.a1.toNat →
      exec .bfWriteByte s = .next (s.afterFault .valueTooWide))

/-- 40_bitfield.md R101: `BF_READ_BYTE` returns one byte, zero-extended. -/
def Obligations.BfReadByteReturnsTheByte : Prop :=
  decode 0x00000004 = .ok .bfReadByte ∧
  ∀ s : State,
    (s.latch.a0.toNat < s.params.bfBufBytes →
      exec .bfReadByte s = .next { s.afterOk with result := (s.bf.read s.latch.a0.toNat).setWidth 64 }) ∧
    (s.params.bfBufBytes ≤ s.latch.a0.toNat → exec .bfReadByte s = .next (s.afterFault .index))

/-- 40_bitfield.md R102, 20_memory.md R51: `BF_GET_BITS` returns the range of the big-endian number that the first
`BF_LEN` bytes are, or faults with `RANGE`. -/
def Obligations.BfGetBitsReturnsTheRange : Prop :=
  decode 0x00000005 = .ok .bfGetBits ∧
  ∀ s : State,
    (s.latch.a0.toNat < s.latch.a1.toNat ∧ s.latch.a1.toNat - s.latch.a0.toNat ≤ 64 ∧
        s.latch.a1.toNat ≤ 8 * s.bfLen →
      ∃ t, exec .bfGetBits s = .next t ∧
        t.result.toNat =
          bufferNumber s.bf s.bfLen / 2 ^ s.latch.a0.toNat % 2 ^ (s.latch.a1.toNat - s.latch.a0.toNat) ∧
        t = { s.afterOk with result := t.result }) ∧
    (¬(s.latch.a0.toNat < s.latch.a1.toNat ∧ s.latch.a1.toNat - s.latch.a0.toNat ≤ 64 ∧
        s.latch.a1.toNat ≤ 8 * s.bfLen) →
      exec .bfGetBits s = .next (s.afterFault .range))

/-- 40_bitfield.md R103, R93, R106: `BF_SET_BITS` writes exactly the bits of the range, keeps every other bit of the view
and every byte from `BF_LEN` up; the range is checked before the value. -/
def Obligations.BfSetBitsWritesTheRange : Prop :=
  decode 0x00000006 = .ok .bfSetBits ∧
  ∀ s : State, s.bf.wf →
    (s.latch.a0.toNat < s.latch.a1.toNat → s.latch.a1.toNat - s.latch.a0.toNat ≤ 64 →
      s.latch.a1.toNat ≤ 8 * s.bfLen → s.latch.a2.toNat < 2 ^ (s.latch.a1.toNat - s.latch.a0.toNat) →
      ∃ t, exec .bfSetBits s = .next t ∧
        (∀ k, k < 8 * s.bfLen → bitAt t.bf s.bfLen k =
          if s.latch.a0.toNat ≤ k ∧ k < s.latch.a1.toNat then s.latch.a2.toNat.testBit (k - s.latch.a0.toNat)
          else bitAt s.bf s.bfLen k) ∧
        (∀ j, s.bfLen ≤ j → t.bf.read j = s.bf.read j) ∧ t = { s.afterOk with bf := t.bf }) ∧
    (¬(s.latch.a0.toNat < s.latch.a1.toNat ∧ s.latch.a1.toNat - s.latch.a0.toNat ≤ 64 ∧
        s.latch.a1.toNat ≤ 8 * s.bfLen) →
      exec .bfSetBits s = .next (s.afterFault .range)) ∧
    (s.latch.a0.toNat < s.latch.a1.toNat → s.latch.a1.toNat - s.latch.a0.toNat ≤ 64 →
      s.latch.a1.toNat ≤ 8 * s.bfLen → 2 ^ (s.latch.a1.toNat - s.latch.a0.toNat) ≤ s.latch.a2.toNat →
      exec .bfSetBits s = .next (s.afterFault .valueTooWide))

/-- 40_bitfield.md R104, R96: `BF_GET_SPAN` returns element `i` of width `e`, with exact products, or faults with
`RANGE`. -/
def Obligations.BfGetSpanReturnsTheElement : Prop :=
  decode 0x00000007 = .ok .bfGetSpan ∧
  ∀ (s : State) (e i : Nat), e = s.latch.a0.toNat → i = s.latch.a1.toNat →
    (1 ≤ e ∧ e ≤ 64 ∧ e * (i + 1) ≤ 8 * s.bfLen →
      ∃ t, exec .bfGetSpan s = .next t ∧
        t.result.toNat = bufferNumber s.bf s.bfLen / 2 ^ (e * i) % 2 ^ e ∧ t = { s.afterOk with result := t.result }) ∧
    (¬(1 ≤ e ∧ e ≤ 64 ∧ e * (i + 1) ≤ 8 * s.bfLen) → exec .bfGetSpan s = .next (s.afterFault .range))

/-- 40_bitfield.md R105, R96, R95: `BF_SET_SPAN` writes element `i` of width `e` and keeps every other bit of the view and
every byte from `BF_LEN` up. -/
def Obligations.BfSetSpanWritesTheElement : Prop :=
  decode 0x00000008 = .ok .bfSetSpan ∧
  ∀ (s : State) (e i v : Nat), e = s.latch.a0.toNat → i = s.latch.a1.toNat → v = s.latch.a2.toNat → s.bf.wf →
    (1 ≤ e → e ≤ 64 → e * (i + 1) ≤ 8 * s.bfLen → v < 2 ^ e →
      ∃ t, exec .bfSetSpan s = .next t ∧
        (∀ k, k < 8 * s.bfLen → bitAt t.bf s.bfLen k =
          if e * i ≤ k ∧ k < e * (i + 1) then v.testBit (k - e * i) else bitAt s.bf s.bfLen k) ∧
        (∀ j, s.bfLen ≤ j → t.bf.read j = s.bf.read j) ∧ t = { s.afterOk with bf := t.bf }) ∧
    (¬(1 ≤ e ∧ e ≤ 64 ∧ e * (i + 1) ≤ 8 * s.bfLen) → exec .bfSetSpan s = .next (s.afterFault .range)) ∧
    (1 ≤ e → e ≤ 64 → e * (i + 1) ≤ 8 * s.bfLen → 2 ^ e ≤ v →
      exec .bfSetSpan s = .next (s.afterFault .valueTooWide))

/-- 20_memory.md R51: `GetBits` on a valid range is a slice of the buffer's big-endian number, and bit `k` of the buffer
is bit `k` of that number. -/
def Obligations.GetBitsSlicesTheBigEndianNumber : Prop :=
  ∀ (m : Memory) (len : Nat),
    (∀ k, k < 8 * len → bitAt m len k = (bufferNumber m len).testBit k) ∧
      ∀ start stop, RangeValid len start stop →
        getBits m len start stop = .ok (bufferNumber m len / 2 ^ start % 2 ^ (stop - start))

/-- 40_bitfield.md R95: round trip and locality of `GetBits` and `SetBits`. -/
def Obligations.SetBitsRoundTripsAndIsLocal : Prop :=
  ∀ (m : Memory) (len start stop v : Nat), m.wf → RangeValid len start stop → v < 2 ^ (stop - start) →
    ∃ m', setBits m len start stop v = .ok m' ∧ getBits m' len start stop = .ok v ∧
      ∀ k, k < 8 * len → ¬(start ≤ k ∧ k < stop) → bitAt m' len k = bitAt m len k

/-- 40_bitfield.md R91: the source's chunked `getBits` gives the same result as R90 for every valid range. -/
def Obligations.ChunkedGetBitsAgrees : Prop :=
  ∀ (m : Memory) (len start stop : Nat), RangeValid len start stop →
    getBits m len start stop = .ok (chunkedGet m len stop (stop - start) start 0 0)

/-- 40_bitfield.md R94: the source's chunked `setBits` gives the same buffer as R93. -/
def Obligations.ChunkedSetBitsAgrees : Prop :=
  ∀ (m : Memory) (len start stop v : Nat), m.wf → RangeValid len start stop → v < 2 ^ (stop - start) →
    setBits m len start stop v = .ok (chunkedSet len stop v (stop - start) start 0 m)

/-- 20_memory.md R53: a byte written at `i < L` is the bits `[8·(L − 1 − i), 8·(L − i))` of the view of length `L`,
whatever `L` is; a byte written at or above `L` is in no bit range of that view. -/
def Obligations.WrittenBytesShowInTheBitView : Prop :=
  ∀ (m : Memory) (len i : Nat) (v : Byte), m.wf →
    (i < len → getBits (m.write i v) len (8 * (len - 1 - i)) (8 * (len - i)) = .ok v.toNat) ∧
      (len ≤ i → ∀ start stop, getBits (m.write i v) len start stop = getBits m len start stop)

/-! ## The packed-digit store -/

/-- 41_packed_number.md R114, R122, R124: `CONSTRUCT` on a FREE slot with a base in range always ends in Ok, and it then
holds exactly the value, normalized, with the spec's digit count, width and doubled capacity; a LIVE slot faults before
the base is looked at, and a base out of range is `INVALID_BASE`. -/
def Obligations.ConstructBuildsTheNumber : Prop :=
  (∀ a, a < 256 → decode (BitVec.ofNat 64 (0x10 + 0x100 * a)) = .ok (.construct a)) ∧
  ∀ (s : State) (a x b : Nat), s.Inv → a < s.params.numSlots → x = s.latch.a0.toNat → b = s.latch.a1.toNat →
    ((s.slotAt a).state = .free → 2 ≤ b → b ≤ 2 ^ 63 - 1 →
      ∃ t sl, exec (.construct a) s = .next t ∧ t = { s.afterOk with slots := s.slots.set a sl } ∧
        t.slotAt a = sl ∧ sl.state = .live ∧ sl.base = b ∧ sl.value = x ∧ sl.digitCount = (digitsOf x b).length ∧
        sl.LiveInv s.params.maxCapacityBytes ∧
        ∀ k, sl.bpd * sl.digitCount ≤ 8 * (ceilBytes sl.bpd * 2 ^ k) → sl.capacityBytes ≤ ceilBytes sl.bpd * 2 ^ k) ∧
    ((s.slotAt a).state = .live → exec (.construct a) s = .next (s.afterFault .slotState)) ∧
    ((s.slotAt a).state = .free → b < 2 ∨ 2 ^ 63 - 1 < b →
      exec (.construct a) s = .next (s.afterError 1))

/-- 41_packed_number.md R122: `CONSTRUCT` needs at most 16 bytes, for every 64-bit value in every base, base 3 reaching
16; so that it never ends in `ALLOCATION_FAILURE` under the constraints of 00_scope.md R7. -/
def Obligations.ConstructNeedsAtMostSixteenBytes : Prop :=
  (∀ x b : Nat, x < 2 ^ 64 → 2 ≤ b → b ≤ 2 ^ 63 - 1 → (builtSlot x b).capacityBytes ≤ 16) ∧
    ((digitsOf (2 ^ 64 - 1) 3).length = 41 ∧ (builtSlot (2 ^ 64 - 1) 3).capacityBytes = 16) ∧
    ∀ (s : State) (a : Nat), s.params.Valid → s.status.err ≠ 3 →
      ∃ t, exec (.construct a) s = .next t ∧ t.status.err ≠ 3

/-- 41_packed_number.md R115: `RELEASE` frees a LIVE slot, and faults on a FREE one. -/
def Obligations.ReleaseFreesTheSlot : Prop :=
  (∀ a, a < 256 → decode (BitVec.ofNat 64 (0x11 + 0x100 * a)) = .ok (.release a)) ∧
  ∀ (s : State) (a : Nat), a < s.params.numSlots → s.slots.length = s.params.numSlots →
    ((s.slotAt a).state = .live →
      ∃ t, exec (.release a) s = .next t ∧
        t.slotAt a = { state := .free, base := 0, bpd := 0, digitCount := 0, capacityBytes := 0, buf := [] } ∧
        t = { s.afterOk with slots := s.slots.set a (t.slotAt a) }) ∧
    ((s.slotAt a).state = .free → exec (.release a) s = .next (s.afterFault .slotState))

/-- 41_packed_number.md R116, 20_memory.md R54: `DIGIT_AT` returns digit `i`, the `bpd` bits from `bpd · i` up of the
slot's big-endian number, and it is a digit of the base; a digit at or above `digitCount` faults with `INDEX`. -/
def Obligations.DigitAtReturnsTheDigit : Prop :=
  (∀ a, a < 256 → decode (BitVec.ofNat 64 (0x12 + 0x100 * a)) = .ok (.digitAt a)) ∧
  ∀ (s : State) (a i : Nat), s.Inv → a < s.params.numSlots → i = s.latch.a0.toNat →
    ((s.slotAt a).state = .live → i < (s.slotAt a).digitCount →
      ∃ t, exec (.digitAt a) s = .next t ∧
        t.result.toNat = bufferNumber (s.slotAt a).buf (s.slotAt a).capacityBytes / 2 ^ ((s.slotAt a).bpd * i) %
          2 ^ (s.slotAt a).bpd ∧
        t.result.toNat < (s.slotAt a).base ∧ t = { s.afterOk with result := t.result }) ∧
    ((s.slotAt a).state = .live → (s.slotAt a).digitCount ≤ i →
      exec (.digitAt a) s = .next (s.afterFault .index)) ∧
    ((s.slotAt a).state = .free → exec (.digitAt a) s = .next (s.afterFault .slotState))

/-- 41_packed_number.md R117: `SET_DIGIT_AT` writes one digit below `capDigits`, keeps every other digit and every other
field, and renormalises `digitCount`; the checks are SLOT_STATE, INDEX, VALUE_TOO_WIDE in that order. -/
def Obligations.SetDigitAtWritesTheDigit : Prop :=
  (∀ a, a < 256 → decode (BitVec.ofNat 64 (0x13 + 0x100 * a)) = .ok (.setDigitAt a)) ∧
  ∀ (s : State) (a i v : Nat), s.Inv → a < s.params.numSlots → i = s.latch.a0.toNat → v = s.latch.a1.toNat →
    ((s.slotAt a).state = .live → i < (s.slotAt a).capDigits → v < (s.slotAt a).base →
      ∃ t sl, exec (.setDigitAt a) s = .next t ∧ t = { s.afterOk with slots := s.slots.set a sl } ∧
        t.slotAt a = sl ∧ sl = { s.slotAt a with buf := sl.buf, digitCount := sl.digitCount } ∧
        (∀ j, j < (s.slotAt a).capDigits → sl.digit j = if j = i then v else (s.slotAt a).digit j) ∧
        (∀ j, sl.digitCount ≤ j → j < (s.slotAt a).capDigits → sl.digit j = 0) ∧
        sl.LiveInv s.params.maxCapacityBytes) ∧
    ((s.slotAt a).state = .live → (s.slotAt a).capDigits ≤ i →
      exec (.setDigitAt a) s = .next (s.afterFault .index)) ∧
    ((s.slotAt a).state = .live → i < (s.slotAt a).capDigits → (s.slotAt a).base ≤ v →
      exec (.setDigitAt a) s = .next (s.afterFault .valueTooWide)) ∧
    ((s.slotAt a).state = .free → exec (.setDigitAt a) s = .next (s.afterFault .slotState))

/-- 41_packed_number.md R118 to R121: the four queries return their field of a LIVE slot, and fault on a FREE one. The
state is any state, so that a field may be `2^64` or more; that `RESULT` is then the field modulo `2^64` is the model's
reading (log 10), and below `2^64` it is the field itself. -/
def Obligations.QueriesReturnTheFields : Prop :=
  (∀ a, a < 256 → decode (BitVec.ofNat 64 (0x14 + 0x100 * a)) = .ok (.getBase a) ∧
      decode (BitVec.ofNat 64 (0x15 + 0x100 * a)) = .ok (.getBpd a) ∧
      decode (BitVec.ofNat 64 (0x16 + 0x100 * a)) = .ok (.getDigitCount a) ∧
      decode (BitVec.ofNat 64 (0x17 + 0x100 * a)) = .ok (.getCapacity a)) ∧
  ∀ (s : State) (a : Nat), a < s.params.numSlots →
    ((s.slotAt a).state = .live →
      exec (.getBase a) s = .next { s.afterOk with result := BitVec.ofNat 64 (s.slotAt a).base } ∧
        exec (.getBpd a) s = .next { s.afterOk with result := BitVec.ofNat 64 (s.slotAt a).bpd } ∧
        exec (.getDigitCount a) s = .next { s.afterOk with result := BitVec.ofNat 64 (s.slotAt a).digitCount } ∧
        exec (.getCapacity a) s = .next { s.afterOk with result := BitVec.ofNat 64 (s.slotAt a).capacityBytes }) ∧
    ((s.slotAt a).state = .free →
      exec (.getBase a) s = .next (s.afterFault .slotState) ∧ exec (.getBpd a) s = .next (s.afterFault .slotState) ∧
        exec (.getDigitCount a) s = .next (s.afterFault .slotState) ∧
        exec (.getCapacity a) s = .next (s.afterFault .slotState))

/-- 41_packed_number.md R123: a digit set and then read back, where it stays below the new `digitCount`, reads as the
value set; otherwise the read faults with `INDEX`. The two commands are latched one after the other. -/
def Obligations.SetDigitThenDigitAtRoundTrips : Prop :=
  ∀ (s : State) (a i v : Nat) (l : Latch), s.Inv → a < s.params.numSlots → (s.slotAt a).state = .live →
    i = s.latch.a0.toNat → v = s.latch.a1.toNat → i < (s.slotAt a).digitCount → v < (s.slotAt a).base →
    l.a0 = s.latch.a0 →
      ∃ t, exec (.setDigitAt a) s = .next t ∧
        (i < (t.slotAt a).digitCount → ∃ u, exec (.digitAt a) { t with latch := l } = .next u ∧ u.result.toNat = v ∧
          u.status.fault = s.status.fault) ∧
        (i + 1 < (s.slotAt a).digitCount ∨ v ≠ 0 → i < (t.slotAt a).digitCount) ∧
        ((t.slotAt a).digitCount ≤ i →
          exec (.digitAt a) { t with latch := l } = .next (State.afterFault { t with latch := l } .index))

/-! ## The carry propagator -/

/-- 42_carry_adder.md R125, R126: the carry step is exact, cannot overflow 64 bits, gives a digit of the base and a carry
of 0 or 1. -/
def Obligations.CarryStepIsExact : Prop :=
  ∀ x y cin b : Nat, 2 ≤ b → b ≤ 2 ^ 63 - 1 → x < b → y < b → cin ≤ 1 →
    cin + x + y = (carryStep x y cin b).1 + b * (carryStep x y cin b).2 ∧ (carryStep x y cin b).1 < b ∧
      (carryStep x y cin b).2 ≤ 1 ∧ cin + x + y ≤ 2 * b - 1 ∧ 2 * b - 1 ≤ 2 ^ 64 - 3

/-- 42_carry_adder.md R132, with R127 to R131: `ADD_ASSIGN` of two LIVE slots of one base, where a doubled capacity within
the limit has room for `maxDigits + 1` digits, ends in Ok and adds exactly, also where both operands are one slot. The
sum is normalized, its digit count is `maxDigits`, or `maxDigits + 1` with the top digit 1, its capacity is the first
doubling with that room, and nothing else changes. -/
def Obligations.AddAssignAddsExactly : Prop :=
  ∀ (s : State) (a b m : Nat), s.Inv → a < s.params.numSlots → b < s.params.numSlots →
    (s.slotAt a).state = .live → (s.slotAt b).state = .live → (s.slotAt a).base = (s.slotAt b).base →
    m = max (s.slotAt a).digitCount (s.slotAt b).digitCount →
    (∃ k, (s.slotAt a).bpd * (m + 1) ≤ 8 * ((s.slotAt a).capacityBytes * 2 ^ k) ∧
      (s.slotAt a).capacityBytes * 2 ^ k ≤ s.params.maxCapacityBytes) →
    ∃ t sl, exec (.addAssign a b) s = .next t ∧ t = { s.afterOk with slots := s.slots.set a sl } ∧ t.slotAt a = sl ∧
      sl.value = (s.slotAt a).value + (s.slotAt b).value ∧ sl.state = .live ∧ sl.base = (s.slotAt a).base ∧
      sl.bpd = (s.slotAt a).bpd ∧ (sl.digitCount = m ∨ sl.digitCount = m + 1 ∧ sl.digit m = 1) ∧
      sl.LiveInv s.params.maxCapacityBytes ∧ sl.bpd * (m + 1) ≤ 8 * sl.capacityBytes ∧
      ∀ k, sl.bpd * (m + 1) ≤ 8 * ((s.slotAt a).capacityBytes * 2 ^ k) →
        sl.capacityBytes ≤ (s.slotAt a).capacityBytes * 2 ^ k

/-- 42_carry_adder.md R127, 41_packed_number.md R111: how `ADD_ASSIGN` fails, in the order of its checks: a FREE dest, a
FREE right, two bases, and no doubled capacity within the limit. Nothing but `STATUS` changes. -/
def Obligations.AddAssignFailsWithoutMutation : Prop :=
  ∀ (s : State) (a b m : Nat), s.Inv → a < s.params.numSlots → b < s.params.numSlots →
    m = max (s.slotAt a).digitCount (s.slotAt b).digitCount →
    ((s.slotAt a).state = .free → exec (.addAssign a b) s = .next (s.afterFault .slotState)) ∧
    ((s.slotAt a).state = .live → (s.slotAt b).state = .free →
      exec (.addAssign a b) s = .next (s.afterFault .slotState)) ∧
    ((s.slotAt a).state = .live → (s.slotAt b).state = .live → (s.slotAt a).base ≠ (s.slotAt b).base →
      exec (.addAssign a b) s = .next (s.afterError 2)) ∧
    ((s.slotAt a).state = .live → (s.slotAt b).state = .live → (s.slotAt a).base = (s.slotAt b).base →
      (∀ k, (s.slotAt a).bpd * (m + 1) ≤ 8 * ((s.slotAt a).capacityBytes * 2 ^ k) →
        s.params.maxCapacityBytes < (s.slotAt a).capacityBytes * 2 ^ k) →
      exec (.addAssign a b) s = .next (s.afterError 3))

/-- 42_carry_adder.md R133: a carry chain over every digit: `b^k − 1` plus 1 gives the digits `[0, …, 0, 1]` with
`digitCount = k + 1`, where a doubled capacity within the limit has room for that many digits. -/
def Obligations.CarryChainMakesANewTopDigit : Prop :=
  ∀ (s : State) (a b k : Nat), s.Inv → a < s.params.numSlots → b < s.params.numSlots →
    (s.slotAt a).state = .live → (s.slotAt b).state = .live → (s.slotAt a).base = (s.slotAt b).base →
    (s.slotAt a).digitCount = k → (∀ i, i < k → (s.slotAt a).digit i = (s.slotAt a).base - 1) →
    (s.slotAt b).value = 1 →
    (∃ j, (s.slotAt a).bpd * (k + 1) ≤ 8 * ((s.slotAt a).capacityBytes * 2 ^ j) ∧
      (s.slotAt a).capacityBytes * 2 ^ j ≤ s.params.maxCapacityBytes) →
    ∃ t, exec (.addAssign a b) s = .next t ∧ (t.slotAt a).digitCount = k + 1 ∧
      (∀ i, i < k → (t.slotAt a).digit i = 0) ∧ (t.slotAt a).digit k = 1
end

