-- ==== Sys2Proof/Laws/Memory.lean ====
section
/-! SUPPORT. The buffer operations: read after write, and the canonical form is kept by every one of them. -/

namespace Sys2Proof.Laws

open Sys2Proof.Machine

theorem read_put (a x : Nat) (c : Byte) (r : Memory) (hr : a = x → r.read x = Config.unlistedByte) :
    (Memory.put a c r).read x = if a = x then c else r.read x := by
  unfold Memory.put
  split
  · next h => split <;> simp_all
  · simp [Memory.read]

/-- A byte below every listed index reads as an unlisted one. -/
theorem read_of_lt {m : Memory} {x : Nat} (h : ∀ c ∈ m, x < c.1) : m.read x = Config.unlistedByte := by
  induction m with
  | nil => rfl
  | cons c r ih =>
    have hc := h c (by simp)
    have hne : c.1 ≠ x := by omega
    simp only [Memory.read, hne, if_false]
    exact ih fun d hd => h d (by simp [hd])

/-- Reading after a write: the written byte at its index, every other byte as before. -/
theorem read_write {m : Memory} (hm : m.wf) (a x : Nat) (b : Byte) :
    (m.write a b).read x = if a = x then b else m.read x := by
  induction m with
  | nil => exact read_put a x b [] fun _ => rfl
  | cons c r ih =>
    obtain ⟨k, v⟩ := c
    obtain ⟨hp, hz⟩ := hm
    rw [List.pairwise_cons] at hp
    have hr : Memory.wf r := ⟨hp.2, fun d hd => hz d (by simp [hd])⟩
    unfold Memory.write
    split
    · next hlt =>
      refine read_put a x b _ fun hax => read_of_lt ?_
      intro d hd
      rcases List.mem_cons.1 hd with rfl | hd
      · simpa [← hax] using hlt
      · have := hp.1 d hd; simp only at this; omega
    · split
      · next hlt hak =>
        subst hak
        rw [read_put a x b r fun hax => read_of_lt fun d hd => hax ▸ hp.1 d hd]
        simp only [Memory.read]
        split <;> rfl
      · next hlt hak =>
        simp only [Memory.read, ih hr]
        by_cases hkx : k = x
        · have : a ≠ x := by omega
          simp [hkx, this]
        · simp [hkx]

/-- A byte at or above every listed index reads as an unlisted one. -/
theorem read_of_below {m : Memory} {n x : Nat} (h : m.Below n) (hx : n ≤ x) : m.read x = Config.unlistedByte := by
  induction m with
  | nil => rfl
  | cons c r ih =>
    have hc := h c (by simp)
    have hne : c.1 ≠ x := by omega
    simp only [Memory.read, hne, if_false]
    exact ih fun d hd => h d (by simp [hd])

theorem mem_put {a : Nat} {c : Byte} {r : Memory} {d : Host.Cell} (h : d ∈ Memory.put a c r) :
    (d = (a, c) ∧ c ≠ Config.unlistedByte) ∨ d ∈ r := by
  unfold Memory.put at h
  split at h
  · exact .inr h
  · next hc => rcases List.mem_cons.1 h with rfl | h
               · exact .inl ⟨rfl, hc⟩
               · exact .inr h

/-- A write lists nothing but the written byte and what was listed. -/
theorem mem_write {m : Memory} {a : Nat} {b : Byte} {d : Host.Cell} (h : d ∈ m.write a b) :
    (d = (a, b) ∧ b ≠ Config.unlistedByte) ∨ d ∈ m := by
  induction m with
  | nil => exact mem_put h
  | cons c r ih =>
    unfold Memory.write at h
    split at h
    · exact mem_put h
    · split at h
      · rcases mem_put h with h | h
        · exact .inl h
        · exact .inr (by simp [h])
      · rcases List.mem_cons.1 h with rfl | h
        · exact .inr (by simp)
        · rcases ih h with h | h
          · exact .inl h
          · exact .inr (by simp [h])

theorem wf_put {a : Nat} {c : Byte} {r : Memory} (hr : r.wf) (h : ∀ d ∈ r, a < d.1) : (Memory.put a c r).wf := by
  unfold Memory.put
  split
  · exact hr
  · next hc =>
    refine ⟨List.pairwise_cons.2 ⟨h, hr.1⟩, fun d hd => ?_⟩
    rcases List.mem_cons.1 hd with rfl | hd
    · exact hc
    · exact hr.2 d hd

/-- A write keeps the canonical form. -/
theorem wf_write {m : Memory} (hm : m.wf) (a : Nat) (b : Byte) : (m.write a b).wf := by
  induction m with
  | nil => exact wf_put hm (by simp)
  | cons c r ih =>
    obtain ⟨k, v⟩ := c
    have hp := List.pairwise_cons.1 hm.1
    have hr : Memory.wf r := ⟨hp.2, fun d hd => hm.2 d (by simp [hd])⟩
    unfold Memory.write
    split
    · next hlt =>
      refine wf_put hm fun d hd => ?_
      rcases List.mem_cons.1 hd with rfl | hd
      · exact hlt
      · have := hp.1 d hd; simp only at this; omega
    · split
      · next hak => exact wf_put hr fun d hd => hak ▸ hp.1 d hd
      · next hlt hak =>
        refine ⟨List.pairwise_cons.2 ⟨fun d hd => ?_, (ih hr).1⟩, fun d hd => ?_⟩
        · rcases mem_write hd with ⟨rfl, -⟩ | hd
          · simp only; omega
          · exact hp.1 d hd
        · rcases List.mem_cons.1 hd with rfl | hd
          · exact hm.2 _ (by simp)
          · exact (ih hr).2 d hd

/-- A write below `n` keeps a buffer below `n`. -/
theorem below_write {m : Memory} {n a : Nat} (hm : m.Below n) (ha : a < n) (b : Byte) : (m.write a b).Below n := by
  intro d hd
  rcases mem_write hd with ⟨rfl, -⟩ | hd
  · exact ha
  · exact hm d hd

/-- A buffer of `n` bytes has room in any longer one. -/
theorem below_mono {m : Memory} {n k : Nat} (hm : m.Below n) (h : n ≤ k) : m.Below k :=
  fun c hc => Nat.lt_of_lt_of_le (hm c hc) h

/-- Growth at the front keeps the canonical form. -/
theorem wf_growFront {m : Memory} (hm : m.wf) (d : Nat) : (m.growFront d).wf := by
  constructor
  · unfold Memory.growFront
    rw [List.pairwise_map]
    exact hm.1.imp fun h => by simpa using h
  · intro c hc
    obtain ⟨e, he, rfl⟩ := List.mem_map.1 hc
    exact hm.2 e he

/-- Growth at the front adds its bytes to the bound. -/
theorem below_growFront {m : Memory} {n : Nat} (hm : m.Below n) (d : Nat) : (m.growFront d).Below (n + d) := by
  intro c hc
  obtain ⟨e, he, rfl⟩ := List.mem_map.1 hc
  have := hm e he
  simpa using this

/-- After growth at the front, byte `x` of the old buffer is byte `x + d`, and the first `d` bytes read as unlisted
ones (20_memory.md R56). -/
theorem read_growFront (m : Memory) (d x : Nat) :
    (m.growFront d).read x = if x < d then Config.unlistedByte else m.read (x - d) := by
  induction m with
  | nil => simp [Memory.growFront, Memory.read]
  | cons c r ih =>
    simp only [Memory.growFront, List.map_cons, Memory.read] at ih ⊢
    rw [ih]
    by_cases hx : x < d
    · have : c.1 + d ≠ x := by omega
      simp [hx, this]
    · by_cases hc : c.1 + d = x
      · have : c.1 = x - d := by omega
        simp [hx, this]; omega
      · have : c.1 ≠ x - d := by omega
        simp [hx, hc, this]

/-- Two buffers in canonical form that read alike everywhere are the same list. -/
theorem memory_ext {m n : Memory} (hm : m.wf) (hn : n.wf) (h : ∀ a, m.read a = n.read a) : m = n := by
  induction m generalizing n with
  | nil =>
    cases n with
    | nil => rfl
    | cons d q =>
      have := h d.1
      simp only [Memory.read, if_true] at this
      exact absurd this.symm (hn.2 d (by simp))
  | cons c r ih =>
    cases n with
    | nil =>
      have := h c.1
      simp only [Memory.read, if_true] at this
      exact absurd this (hm.2 c (by simp))
    | cons d q =>
      have hpm := List.pairwise_cons.1 hm.1
      have hpn := List.pairwise_cons.1 hn.1
      have hr : Memory.wf r := ⟨hpm.2, fun e he => hm.2 e (by simp [he])⟩
      have hq : Memory.wf q := ⟨hpn.2, fun e he => hn.2 e (by simp [he])⟩
      have hkey : c.1 = d.1 := by
        rcases Nat.lt_trichotomy c.1 d.1 with hlt | heq | hlt
        · have h1 := h c.1
          rw [read_of_lt (m := d :: q) (x := c.1) (fun e he => by
            rcases List.mem_cons.1 he with rfl | he
            · exact hlt
            · exact hlt.trans (hpn.1 e he))] at h1
          simp only [Memory.read, if_true] at h1
          exact absurd h1 (hm.2 c (by simp))
        · exact heq
        · have h1 := h d.1
          rw [read_of_lt (m := c :: r) (x := d.1) (fun e he => by
            rcases List.mem_cons.1 he with rfl | he
            · exact hlt
            · exact hlt.trans (hpm.1 e he))] at h1
          simp only [Memory.read, if_true] at h1
          exact absurd h1.symm (hn.2 d (by simp))
      have hval : c.2 = d.2 := by
        have := h c.1
        simpa [Memory.read, hkey] using this
      have hcd : c = d := Prod.ext hkey hval
      subst hcd
      rw [ih hr hq]
      intro a
      by_cases hac : c.1 = a
      · subst hac
        rw [read_of_lt hpm.1, read_of_lt hpn.1]
      · have := h a
        simpa [Memory.read, hac] using this

end Sys2Proof.Laws
end

