-- ==== Sys2Proof/Laws/Bits.lean ====
section
/-! SUPPORT. The bit view of a buffer: what writing a bit, a range and a value does to every bit and every byte, and
what a checked access answers. -/

namespace Sys2Proof.Laws

open Sys2Proof.Machine

/-- Replacing a bit of a byte replaces that bit alone. -/
theorem getLsbD_byteWithBit (x : Byte) {p : Nat} (hp : p < 8) (v : Bool) (q : Nat) :
    (byteWithBit x p v).getLsbD q = if q = p then v else x.getLsbD q := by
  have h1 : ∀ n : Nat, n = 0 ↔ n < 1 := by omega
  cases v <;> by_cases hq : q = p
  · subst hq; simp [byteWithBit, hp]
  · by_cases hq8 : q < 8
    · by_cases hqp : q < p
      · simp [byteWithBit, hq, hq8, hqp]
      · have : q - p ≠ 0 := by omega
        simp [byteWithBit, hq, hq8, hqp, this]
    · simp [byteWithBit, hq, BitVec.getLsbD_of_ge x q (by omega)]
  · subst hq; simp [byteWithBit, hp]
  · by_cases hqp : q < p
    · simp [byteWithBit, hq, hqp]
    · have : q - p ≠ 0 := by omega
      simp [byteWithBit, hq, hqp, this]

theorem byteOfBit_lt {len k : Nat} (hk : k < 8 * len) : byteOfBit len k < len := by
  unfold byteOfBit; omega

/-- Two bit indices of a buffer name the same bit of the same byte only if they are equal. -/
theorem bit_index_unique {len k j : Nat} (hk : k < 8 * len) (hj : j < 8 * len) (hb : byteOfBit len j = byteOfBit len k)
    (hm : j % 8 = k % 8) : j = k := by
  unfold byteOfBit at hb; omega

/-- Writing one bit changes that bit and no other (20_memory.md R50). -/
theorem bitAt_writeBit {m : Memory} (hm : m.wf) {len k : Nat} (hk : k < 8 * len) (v : Bool) {j : Nat}
    (hj : j < 8 * len) : bitAt (writeBit m len k v) len j = if j = k then v else bitAt m len j := by
  unfold bitAt writeBit
  rw [read_write hm]
  split
  · next hb =>
    rw [getLsbD_byteWithBit _ (Nat.mod_lt _ (by omega))]
    by_cases hjk : j = k
    · simp [hjk]
    · have hmod : j % 8 ≠ k % 8 := fun h => hjk (bit_index_unique hk hj hb.symm h)
      simp [hjk, hmod, hb]
  · next hb =>
    have hjk : j ≠ k := fun h => hb (by rw [h])
    simp [hjk]

/-- Writing a bit of the first `len` bytes leaves every byte from `len` up alone. -/
theorem read_writeBit_of_le {m : Memory} (hm : m.wf) {len k : Nat} (hk : k < 8 * len) (v : Bool) {a : Nat}
    (ha : len ≤ a) : (writeBit m len k v).read a = m.read a := by
  unfold writeBit
  have hne : byteOfBit len k ≠ a := by have := byteOfBit_lt hk; omega
  rw [read_write hm, if_neg hne]

theorem wf_writeBit {m : Memory} (hm : m.wf) (len k : Nat) (v : Bool) : (writeBit m len k v).wf := wf_write hm _ _

theorem below_writeBit {m : Memory} {n len k : Nat} (hm : m.Below n) (hk : k < 8 * len) (hn : len ≤ n) (v : Bool) :
    (writeBit m len k v).Below n := below_write hm (Nat.lt_of_lt_of_le (byteOfBit_lt hk) hn) _

theorem wf_writeBits {m : Memory} (hm : m.wf) (len start v w : Nat) : (writeBits m len start v w).wf := by
  induction w with
  | zero => exact hm
  | succ w ih => exact wf_writeBit ih _ _ _

theorem below_writeBits {m : Memory} {n len start v w : Nat} (hm : m.Below n) (hw : start + w ≤ 8 * len) (hn : len ≤ n) :
    (writeBits m len start v w).Below n := by
  induction w with
  | zero => exact hm
  | succ w ih => exact below_writeBit (ih (by omega)) (by omega) hn _

/-- `SetBits`, bit by bit: the bits of the range are those of the value, every other bit is kept (40_bitfield.md R93). -/
theorem bitAt_writeBits {m : Memory} (hm : m.wf) {len start v w : Nat} (hw : start + w ≤ 8 * len) {j : Nat}
    (hj : j < 8 * len) :
    bitAt (writeBits m len start v w) len j =
      if start ≤ j ∧ j < start + w then v.testBit (j - start) else bitAt m len j := by
  induction w with
  | zero =>
    have : ¬(start ≤ j ∧ j < start) := by omega
    simp [writeBits, this]
  | succ w ih =>
    rw [writeBits, bitAt_writeBit (wf_writeBits hm _ _ _ _) (by omega) _ hj, ih (by omega)]
    by_cases h1 : j = start + w
    · subst h1; simp
    · by_cases h2 : start ≤ j ∧ j < start + w
      · have : start ≤ j ∧ j < start + (w + 1) := by omega
        simp [h1, h2, this]
      · have : ¬(start ≤ j ∧ j < start + (w + 1)) := by omega
        simp [h1, h2, this]

/-- `SetBits` leaves every byte from `len` up alone (40_bitfield.md R106). -/
theorem read_writeBits_of_le {m : Memory} (hm : m.wf) {len start v w : Nat} (hw : start + w ≤ 8 * len) {a : Nat}
    (ha : len ≤ a) : (writeBits m len start v w).read a = m.read a := by
  induction w with
  | zero => rfl
  | succ w ih =>
    rw [writeBits, read_writeBit_of_le (wf_writeBits hm _ _ _ _) (by omega) _ ha, ih (by omega)]

/-- `GetBits`, bit by bit: bit `j` of the value is bit `start + j` of the buffer, and no bit lies above the width
(40_bitfield.md R90). -/
theorem testBit_bitsValue (m : Memory) (len start w j : Nat) :
    (bitsValue m len start w).testBit j = (decide (j < w) && bitAt m len (start + j)) := by
  suffices h : bitsValue m len start w < 2 ^ w ∧
      ∀ j, (bitsValue m len start w).testBit j = (decide (j < w) && bitAt m len (start + j)) from h.2 j
  induction w with
  | zero => simp [bitsValue]
  | succ w ih =>
    obtain ⟨hlt, hbit⟩ := ih
    have hb : (bitAt m len (start + w)).toNat ≤ 1 := Bool.toNat_le _
    constructor
    · rw [bitsValue, pow_succ]
      have : (bitAt m len (start + w)).toNat * 2 ^ w ≤ 1 * 2 ^ w := Nat.mul_le_mul_right _ hb
      omega
    · intro j
      rw [bitsValue, Nat.add_comm, Nat.mul_comm, Nat.testBit_two_pow_mul_add _ hlt, hbit]
      by_cases h1 : j < w
      · have : j < w + 1 := by omega
        simp [h1, this]
      · by_cases h2 : j = w
        · subst h2; cases bitAt m len (start + j) <;> simp
        · have h3 : ¬j < w + 1 := by omega
          have h4 : j - w ≠ 0 := by omega
          simp only [h1, h3, if_false, decide_false, Bool.false_and]
          cases bitAt m len (start + w)
          · simp
          · exact Nat.testBit_lt_two_pow (Nat.one_lt_two_pow h4)

theorem bitsValue_lt (m : Memory) (len start w : Nat) : bitsValue m len start w < 2 ^ w := by
  apply Nat.lt_pow_two_of_testBit
  intro j hj
  rw [testBit_bitsValue]
  have : ¬j < w := by omega
  simp [this]

/-- Two buffers that agree on the bits of a range give the same value. -/
theorem bitsValue_congr {m n : Memory} {len len' start start' w : Nat}
    (h : ∀ j, j < w → bitAt m len (start + j) = bitAt n len' (start' + j)) :
    bitsValue m len start w = bitsValue n len' start' w := by
  apply Nat.eq_of_testBit_eq
  intro j
  rw [testBit_bitsValue, testBit_bitsValue]
  by_cases hj : j < w
  · simp [hj, h j hj]
  · simp [hj]

/-- Reading back the range just written gives the value (40_bitfield.md R95). -/
theorem bitsValue_writeBits_same {m : Memory} (hm : m.wf) {len start v w : Nat} (hw : start + w ≤ 8 * len)
    (hv : v < 2 ^ w) : bitsValue (writeBits m len start v w) len start w = v := by
  apply Nat.eq_of_testBit_eq
  intro j
  rw [testBit_bitsValue]
  by_cases hj : j < w
  · rw [bitAt_writeBits hm hw (by omega)]
    have : start ≤ start + j ∧ start + j < start + w := by omega
    simp [hj, this]
  · have h1 : v.testBit j = false :=
      Nat.testBit_lt_two_pow (Nat.lt_of_lt_of_le hv (Nat.pow_le_pow_right (by omega) (by omega)))
    simp [hj, h1]

/-- Reading a range apart from the one written gives what it gave before (40_bitfield.md R95). -/
theorem bitsValue_writeBits_apart {m : Memory} (hm : m.wf) {len start v w start' w' : Nat} (hw : start + w ≤ 8 * len)
    (hw' : start' + w' ≤ 8 * len) (hapart : start' + w' ≤ start ∨ start + w ≤ start') :
    bitsValue (writeBits m len start v w) len start' w' = bitsValue m len start' w' := by
  apply bitsValue_congr
  intro j hj
  rw [bitAt_writeBits hm hw (by omega), if_neg (by omega)]

/-- Growth at the front keeps every bit index, and the new bits are 0 (20_memory.md R56, 41_packed_number.md R110). -/
theorem bitAt_growFront (m : Memory) (d : Nat) {len k : Nat} (hk : k < 8 * (len + d)) :
    bitAt (m.growFront d) (len + d) k = if k < 8 * len then bitAt m len k else false := by
  unfold bitAt
  rw [read_growFront]
  by_cases h : k < 8 * len
  · have h1 : ¬byteOfBit (len + d) k < d := by unfold byteOfBit; omega
    have h2 : byteOfBit (len + d) k - d = byteOfBit len k := by unfold byteOfBit; omega
    simp [h, h1, h2]
  · have h1 : byteOfBit (len + d) k < d := by unfold byteOfBit; omega
    simp [h, h1, Config.unlistedByte]

/-- What `GetBits` answers: the value of a valid range, or `RANGE` (40_bitfield.md R90). -/
theorem getBits_cases (m : Memory) (len start stop : Nat) :
    (RangeValid len start stop ∧ getBits m len start stop = .ok (bitsValue m len start (stop - start))) ∨
      (¬RangeValid len start stop ∧ getBits m len start stop = .error .range) := by
  unfold getBits
  by_cases h : RangeValid len start stop
  · exact .inl ⟨h, if_pos h⟩
  · exact .inr ⟨h, if_neg h⟩

/-- What `SetBits` answers: the written buffer, `RANGE`, or `VALUE_TOO_WIDE`, in that order of checks (40_bitfield.md
R92, R93). -/
theorem setBits_cases (m : Memory) (len start stop v : Nat) :
    (RangeValid len start stop ∧ v < 2 ^ (stop - start) ∧
        setBits m len start stop v = .ok (writeBits m len start v (stop - start))) ∨
      (¬RangeValid len start stop ∧ setBits m len start stop v = .error .range) ∨
      (RangeValid len start stop ∧ 2 ^ (stop - start) ≤ v ∧ setBits m len start stop v = .error .valueTooWide) := by
  unfold setBits
  by_cases h : RangeValid len start stop
  · by_cases hv : v < 2 ^ (stop - start)
    · exact .inl ⟨h, hv, by rw [if_pos h, if_pos hv]⟩
    · exact .inr (.inr ⟨h, by omega, by rw [if_pos h, if_neg hv]⟩)
  · exact .inr (.inl ⟨h, by rw [if_neg h]⟩)

end Sys2Proof.Laws
end

