-- ==== Sys2Proof/Laws/Digits.lean ====
section
/-! SUPPORT. The packed-digit functions: what the loops of the spec answer, and what writing a digit does to every
digit of a buffer. -/

namespace Sys2Proof.Laws

open Sys2Proof.Machine

/-! ## Sizes -/

/-- `ceil(n / 8)` bytes are the fewest that hold `n` bits. -/
theorem ceilBytes_le_iff (n c : Nat) : ceilBytes n ≤ c ↔ n ≤ 8 * c := by unfold ceilBytes; omega

theorem minBitsFrom_spec (x fuel p : Nat) (hp : ∀ q, q < p → 2 ^ q ≤ x) :
    (∀ q, q < minBitsFrom x fuel p → 2 ^ q ≤ x) ∧ (x < 2 ^ (p + fuel) → x < 2 ^ minBitsFrom x fuel p) := by
  induction fuel generalizing p with
  | zero => exact ⟨hp, fun h => h⟩
  | succ n ih =>
    unfold minBitsFrom
    split
    · next h =>
      have := ih (p + 1) fun q hq => by
        rcases Nat.lt_succ_iff_lt_or_eq.1 hq with hq | rfl
        · exact hp q hq
        · exact h
      exact ⟨this.1, fun hx => this.2 (by rwa [Nat.add_right_comm])⟩
    · next h => exact ⟨hp, fun _ => by omega⟩

/-- `minBitsNeeded` of a 64-bit value is the least width that holds it (41_packed_number.md R107). -/
theorem minBitsNeeded_spec {x : Nat} (hx : x < 2 ^ 64) :
    x < 2 ^ minBitsNeeded x ∧ ∀ p, x < 2 ^ p → minBitsNeeded x ≤ p := by
  have h := minBitsFrom_spec x 64 0 (by omega)
  refine ⟨h.2 (by simpa using hx), fun p hp => ?_⟩
  by_contra hlt
  have := h.1 p (by unfold minBitsNeeded at hlt; omega)
  omega

/-- What the doubling loop answers: the first `c · 2^k` that is at least `need`, for any `c ≥ 1` and enough rounds. -/
theorem doubleUntil_spec (need fuel c : Nat) (hc : 1 ≤ c) (hf : need ≤ c + fuel) :
    ∃ k, doubleUntil need fuel c = c * 2 ^ k ∧ need ≤ c * 2 ^ k ∧ ∀ j, j < k → c * 2 ^ j < need := by
  induction fuel generalizing c with
  | zero => exact ⟨0, by simp [doubleUntil], by simpa using hf, by omega⟩
  | succ n ih =>
    unfold doubleUntil
    split
    · next h =>
      obtain ⟨k, h1, h2, h3⟩ := ih (2 * c) (by omega) (by omega)
      have hck : 2 * c * 2 ^ k = c * 2 ^ (k + 1) := by rw [pow_succ]; ring
      refine ⟨k + 1, by rw [h1, hck], by rw [← hck]; exact h2, ?_⟩
      intro j hj
      cases j with
      | zero => simpa using h
      | succ j =>
        have := h3 j (by omega)
        rw [pow_succ]
        calc c * (2 ^ j * 2) = 2 * c * 2 ^ j := by ring
          _ < need := this
    · next h => exact ⟨0, by simp, by simp; omega, by omega⟩

/-- `while c < need: c <- 2 · c` from `c ≥ 1` answers the first `c · 2^k ≥ need` (41_packed_number.md R110). -/
theorem growCapacity_spec (need : Nat) {c : Nat} (hc : 1 ≤ c) :
    ∃ k, growCapacity need c = c * 2 ^ k ∧ need ≤ c * 2 ^ k ∧ ∀ j, j < k → c * 2 ^ j < need :=
  doubleUntil_spec need need c hc (by omega)

/-- What `EnsureCapacity` answers: the slot as it is where it has room, the grown slot, or the error
(41_packed_number.md R110, R111). -/
theorem ensureCapacity_cases (maxBytes : Nat) (sl : Slot) (n : Nat) :
    (sl.bpd * n ≤ 8 * sl.capacityBytes ∧ ensureCapacity maxBytes sl n = .ok sl) ∨
      (8 * sl.capacityBytes < sl.bpd * n ∧
        growCapacity (ceilBytes (sl.bpd * n)) sl.capacityBytes ≤ maxBytes ∧
        ensureCapacity maxBytes sl n =
          .ok { sl with
            buf := sl.buf.growFront
              (growCapacity (ceilBytes (sl.bpd * n)) sl.capacityBytes - sl.capacityBytes)
            capacityBytes := growCapacity (ceilBytes (sl.bpd * n)) sl.capacityBytes }) ∨
      (8 * sl.capacityBytes < sl.bpd * n ∧
        maxBytes < growCapacity (ceilBytes (sl.bpd * n)) sl.capacityBytes ∧
        ensureCapacity maxBytes sl n = .error .allocationFailure) := by
  unfold ensureCapacity
  by_cases h : ceilBytes (sl.bpd * n) ≤ sl.capacityBytes
  · exact .inl ⟨(ceilBytes_le_iff _ _).1 h, by simp [h]⟩
  · have h' : 8 * sl.capacityBytes < sl.bpd * n := by
      by_contra hc
      exact h ((ceilBytes_le_iff _ _).2 (by omega))
    by_cases hg : maxBytes < growCapacity (ceilBytes (sl.bpd * n)) sl.capacityBytes
    · exact .inr (.inr ⟨h', hg, by simp [h, hg]⟩)
    · exact .inr (.inl ⟨h', by omega, by simp [h, hg]⟩)

/-- A slot that `EnsureCapacity` answers: room for `n` digits, a capacity doubled some times, every old bit at its
index, every new bit 0, and every other field kept (41_packed_number.md R110). -/
theorem ensureCapacity_ok {maxBytes n : Nat} {sl g : Slot} (hc : 1 ≤ sl.capacityBytes)
    (hcm : sl.capacityBytes ≤ maxBytes) (hw : sl.buf.wf) (hb : sl.buf.Below sl.capacityBytes)
    (h : ensureCapacity maxBytes sl n = .ok g) :
    sl.bpd * n ≤ 8 * g.capacityBytes ∧ g.capacityBytes ≤ maxBytes ∧ sl.capacityBytes ≤ g.capacityBytes ∧
      (∃ k, g.capacityBytes = sl.capacityBytes * 2 ^ k) ∧ g.buf.wf ∧ g.buf.Below g.capacityBytes ∧
      (∀ k, k < 8 * g.capacityBytes → bitAt g.buf g.capacityBytes k =
        if k < 8 * sl.capacityBytes then bitAt sl.buf sl.capacityBytes k else false) ∧
      g = { sl with buf := g.buf, capacityBytes := g.capacityBytes } := by
  rcases ensureCapacity_cases maxBytes sl n with ⟨hroom, he⟩ | ⟨-, hle, he⟩ | ⟨-, -, he⟩
  · obtain rfl : sl = g := by simpa [he] using h
    exact ⟨hroom, hcm, le_rfl, ⟨0, by simp⟩, hw, hb, fun k hk => by simp [hk], rfl⟩
  · obtain ⟨k, hk, hneed, -⟩ := growCapacity_spec (ceilBytes (sl.bpd * n)) hc
    have hge : sl.capacityBytes ≤ growCapacity (ceilBytes (sl.bpd * n)) sl.capacityBytes := by
      rw [hk]; exact Nat.le_mul_of_pos_right _ (by positivity)
    rw [he] at h
    obtain rfl := Except.ok.inj h
    have hsum : sl.capacityBytes + (growCapacity (ceilBytes (sl.bpd * n)) sl.capacityBytes - sl.capacityBytes) =
        growCapacity (ceilBytes (sl.bpd * n)) sl.capacityBytes := by omega
    refine ⟨(ceilBytes_le_iff _ _).1 (by rw [hk]; exact hneed), hle, hge, ⟨k, hk⟩, wf_growFront hw _, ?_, ?_, rfl⟩
    · have := below_growFront hb (growCapacity (ceilBytes (sl.bpd * n)) sl.capacityBytes - sl.capacityBytes)
      rwa [hsum] at this
    · intro j hj
      have := bitAt_growFront sl.buf (growCapacity (ceilBytes (sl.bpd * n)) sl.capacityBytes - sl.capacityBytes)
        (len := sl.capacityBytes) (k := j) (by rw [hsum]; exact hj)
      rwa [hsum] at this
  · rw [he] at h; cases h

/-! ## Digits of a scalar -/

/-- The number that a list of digits stands for, least significant first (41_packed_number.md R113). -/
def listValue (b : Nat) : List Nat → Nat
  | [] => 0
  | d :: ds => d + b * listValue b ds

/-- `Digits` decomposes exactly, into digits of the base, with no leading zero but for the value 0 (41_packed_number.md
R112). -/
theorem digitsFrom_spec {b : Nat} (hb : 2 ≤ b) (fuel x : Nat) (hx : x < 2 ^ fuel) (hf : 1 ≤ fuel) :
    listValue b (digitsFrom b fuel x) = x ∧ (∀ d ∈ digitsFrom b fuel x, d < b) ∧
      1 ≤ (digitsFrom b fuel x).length ∧ (digitsFrom b fuel x).length ≤ fuel ∧
      (1 < (digitsFrom b fuel x).length → (digitsFrom b fuel x).getLast? ≠ some 0) ∧
      ((digitsFrom b fuel x).length = 1 → x < b) ∧
      b ^ ((digitsFrom b fuel x).length - 1) ≤ max x 1 := by
  induction fuel generalizing x with
  | zero => omega
  | succ n ih =>
    unfold digitsFrom
    by_cases hq : x / b = 0
    · have hlt : x < b := by
        rcases (Nat.div_eq_zero_iff).1 hq with h | h
        · omega
        · exact h
      simp only [hq, if_true]
      refine ⟨by simp [listValue, Nat.mod_eq_of_lt hlt], ?_, by simp, by simp, by simp, fun _ => hlt, by simp⟩
      intro d hd
      rw [List.mem_singleton.1 hd]
      exact Nat.mod_lt _ (by omega)
    · have hbx : b ≤ x := by
        by_contra h
        exact hq (Nat.div_eq_of_lt (by omega))
      have hn : 1 ≤ n := by
        by_contra h
        have : n = 0 := by omega
        subst this
        omega
      have hxn : x / b < 2 ^ n := by
        rw [Nat.div_lt_iff_lt_mul (by omega)]
        calc x < 2 ^ (n + 1) := hx
          _ = 2 ^ n * 2 := pow_succ 2 n
          _ ≤ 2 ^ n * b := Nat.mul_le_mul_left _ hb
      obtain ⟨h1, h2, h3, h4, h5, h6, h7⟩ := ih (x / b) hxn hn
      simp only [hq, if_false]
      refine ⟨?_, ?_, by simp, by simpa using h4, ?_, ?_, ?_⟩
      · simp only [listValue, h1]
        exact Nat.mod_add_div x b
      · intro d hd
        rcases List.mem_cons.1 hd with rfl | hd
        · exact Nat.mod_lt _ (by omega)
        · exact h2 d hd
      · intro _
        by_cases hlen : 1 < (digitsFrom b n (x / b)).length
        · rw [List.getLast?_cons]
          have := h5 hlen
          cases hl : (digitsFrom b n (x / b)).getLast? with
          | none => rw [List.getLast?_eq_none_iff] at hl; rw [hl] at hlen; simp at hlen
          | some y => rw [hl] at this; simpa using this
        · have hl1 : (digitsFrom b n (x / b)).length = 1 := by omega
          obtain ⟨y, hy⟩ := List.length_eq_one_iff.1 hl1
          have hyv : y = x / b := by rw [hy] at h1; simpa [listValue] using h1
          simp [hy, hyv, hq]
      · intro h
        simp only [List.length_cons] at h
        omega
      · simp only [List.length_cons, Nat.add_sub_cancel]
        have hm : max (x / b) 1 = x / b := by omega
        rw [hm] at h7
        have hlen : (digitsFrom b n (x / b)).length = (digitsFrom b n (x / b)).length - 1 + 1 := by omega
        rw [hlen, pow_succ]
        calc b ^ ((digitsFrom b n (x / b)).length - 1) * b ≤ x / b * b := Nat.mul_le_mul_right _ h7
          _ ≤ x := Nat.div_mul_le_self x b
          _ ≤ max x 1 := le_max_left _ _

/-- `Digits` of a 64-bit value in a base of at least 2 (41_packed_number.md R112). -/
theorem digitsOf_spec {b x : Nat} (hb : 2 ≤ b) (hx : x < 2 ^ 64) :
    listValue b (digitsOf x b) = x ∧ (∀ d ∈ digitsOf x b, d < b) ∧ 1 ≤ (digitsOf x b).length ∧
      (digitsOf x b).length ≤ 64 ∧ (1 < (digitsOf x b).length → (digitsOf x b).getLast? ≠ some 0) ∧
      ((digitsOf x b).length = 1 → x < b) ∧ b ^ ((digitsOf x b).length - 1) ≤ max x 1 :=
  digitsFrom_spec hb 64 x hx (by omega)

/-! ## Digits of a buffer -/

/-- Digit `i` lies in a buffer that has room for more than `i` digits. -/
theorem digit_range_le {bpd i n bits : Nat} (hi : i < n) (hn : bpd * n ≤ bits) : bpd * i + bpd ≤ bits := by
  calc bpd * i + bpd = bpd * (i + 1) := by ring
    _ ≤ bpd * n := Nat.mul_le_mul_left _ hi
    _ ≤ bits := hn

theorem digitRead_lt (m : Memory) (cap bpd i : Nat) : digitRead m cap bpd i < 2 ^ bpd := bitsValue_lt _ _ _ _

/-- Reading a digit after a digit is written: the written one at its index, every other digit as before
(41_packed_number.md R108, 40_bitfield.md R95). -/
theorem digitRead_digitWrite {m : Memory} (hm : m.wf) {cap bpd n i j v : Nat} (hn : bpd * n ≤ 8 * cap) (hi : i < n)
    (hj : j < n) (hv : v < 2 ^ bpd) :
    digitRead (digitWrite m cap bpd i v) cap bpd j = if j = i then v else digitRead m cap bpd j := by
  unfold digitRead digitWrite
  have h1 := digit_range_le hi hn
  have h2 := digit_range_le hj hn
  split
  · next h => subst h; exact bitsValue_writeBits_same hm h1 hv
  · next h =>
    refine bitsValue_writeBits_apart hm h1 h2 ?_
    rcases Nat.lt_or_gt_of_ne h with h | h
    · exact .inl (digit_range_le h le_rfl)
    · exact .inr (digit_range_le h le_rfl)

theorem wf_digitWrite {m : Memory} (hm : m.wf) (cap bpd i v : Nat) : (digitWrite m cap bpd i v).wf :=
  wf_writeBits hm _ _ _ _

theorem below_digitWrite {m : Memory} {cap bpd n i : Nat} (hm : m.Below cap) (hn : bpd * n ≤ 8 * cap) (hi : i < n)
    (v : Nat) : (digitWrite m cap bpd i v).Below cap :=
  below_writeBits hm (digit_range_le hi hn) le_rfl

/-- A bit outside digit `i` is kept when digit `i` is written. -/
theorem bitAt_digitWrite_apart {m : Memory} (hm : m.wf) {cap bpd n i v k : Nat} (hn : bpd * n ≤ 8 * cap) (hi : i < n)
    (hk : k < 8 * cap) (hout : k < bpd * i ∨ bpd * (i + 1) ≤ k) :
    bitAt (digitWrite m cap bpd i v) cap k = bitAt m cap k := by
  unfold digitWrite
  rw [bitAt_writeBits hm (digit_range_le hi hn) hk, if_neg]
  rw [Nat.mul_add, Nat.mul_one] at hout
  omega

/-- A digit whose bits are all 0 reads 0. -/
theorem digitRead_eq_zero {m : Memory} {cap bpd i : Nat}
    (h : ∀ k, bpd * i ≤ k → k < bpd * i + bpd → bitAt m cap k = false) : digitRead m cap bpd i = 0 := by
  apply Nat.eq_of_testBit_eq
  intro j
  unfold digitRead
  rw [testBit_bitsValue]
  by_cases hj : j < bpd
  · simp [hj, h (bpd * i + j) (by omega) (by omega)]
  · simp [hj]

/-- A bit of a digit that reads 0 is 0. -/
theorem bitAt_of_digitRead_zero {m : Memory} {cap bpd i k : Nat} (h : digitRead m cap bpd i = 0) (h1 : bpd * i ≤ k)
    (h2 : k < bpd * i + bpd) : bitAt m cap k = false := by
  have := testBit_bitsValue m cap (bpd * i) bpd (k - bpd * i)
  unfold digitRead at h
  have hk : bpd * i + (k - bpd * i) = k := by omega
  have hlt : k - bpd * i < bpd := by omega
  simpa [h, hk, hlt] using this.symm

/-- The number of significant digits among the first `n` (41_packed_number.md R117): every digit from it up to `n` is
0, and the one below it is not, unless it is 1. -/
theorem significantDigits_spec (m : Memory) (cap bpd n : Nat) :
    1 ≤ significantDigits m cap bpd n ∧ significantDigits m cap bpd n ≤ max n 1 ∧
      (∀ j, significantDigits m cap bpd n ≤ j → j < n → digitRead m cap bpd j = 0) ∧
      (1 < significantDigits m cap bpd n → digitRead m cap bpd (significantDigits m cap bpd n - 1) ≠ 0) := by
  induction n with
  | zero => simp [significantDigits]
  | succ n ih =>
    unfold significantDigits
    split
    · next h =>
      refine ⟨by omega, by omega, fun j h1 h2 => by omega, fun _ => by simpa using h⟩
    · next h =>
      obtain ⟨h1, h2, h3, h4⟩ := ih
      refine ⟨h1, by omega, fun j hj hjn => ?_, h4⟩
      rcases Nat.lt_succ_iff_lt_or_eq.1 hjn with hlt | rfl
      · exact h3 j hj hlt
      · simpa using h

/-- Writing a list of digits from digit `i` up: those digits read as the list, every other digit and every bit above
them as before, and the buffer keeps its form (41_packed_number.md R114). -/
theorem writeDigits_spec {cap bpd n : Nat} (hn : bpd * n ≤ 8 * cap) (ds : List Nat) (hd : ∀ d ∈ ds, d < 2 ^ bpd)
    (m : Memory) (hm : m.wf) (hb : m.Below cap) (i : Nat) (hi : i + ds.length ≤ n) :
    (writeDigits m cap bpd i ds).wf ∧ (writeDigits m cap bpd i ds).Below cap ∧
      (∀ j, j < n → digitRead (writeDigits m cap bpd i ds) cap bpd j =
        if i ≤ j ∧ j < i + ds.length then ds.getD (j - i) 0 else digitRead m cap bpd j) ∧
      (∀ k, k < 8 * cap → bpd * (i + ds.length) ≤ k →
        bitAt (writeDigits m cap bpd i ds) cap k = bitAt m cap k) := by
  induction ds generalizing m i with
  | nil =>
    refine ⟨hm, hb, fun j _ => ?_, fun _ _ _ => rfl⟩
    have : ¬(i ≤ j ∧ j < i) := by omega
    simp [writeDigits, this]
  | cons d ds ih =>
    simp only [List.length_cons] at hi ⊢
    have hin : i < n := by omega
    obtain ⟨h1, h2, h3, h4⟩ := ih (fun e he => hd e (by simp [he])) (digitWrite m cap bpd i d)
      (wf_digitWrite hm _ _ _ _) (below_digitWrite hb hn hin d) (i + 1) (by omega)
    refine ⟨h1, h2, fun j hj => ?_, fun k hk hout => ?_⟩
    · rw [writeDigits, h3 j hj, digitRead_digitWrite hm hn hin hj (hd d (by simp))]
      by_cases hji : j = i
      · subst hji
        simp
      · by_cases hr : i + 1 ≤ j ∧ j < i + 1 + ds.length
        · have h6 : i ≤ j ∧ j < i + (ds.length + 1) := by omega
          have h7 : j - i = (j - (i + 1)) + 1 := by omega
          rw [if_pos hr, if_pos h6, h7, List.getD_cons_succ]
        · have h6 : ¬(i ≤ j ∧ j < i + (ds.length + 1)) := by omega
          rw [if_neg hr, if_neg h6, if_neg hji]
    · rw [writeDigits, h4 k hk (by rw [show i + 1 + ds.length = i + (ds.length + 1) by omega]; exact hout)]
      refine bitAt_digitWrite_apart hm hn hin hk (.inr ?_)
      exact le_trans (Nat.mul_le_mul_left _ (by omega)) hout

end Sys2Proof.Laws
end

