-- ==== Sys2Proof/Laws/Adder.lean ====
section
/-! SUPPORT. The carry propagator: the carry step is exact, and the loop adds. -/

namespace Sys2Proof.Laws

open Sys2Proof.Machine

/-- The carry step is exact, its digit is a digit of the base and its carry is 0 or 1 (42_carry_adder.md R126). -/
theorem carryStep_spec {x y cin b : Nat} (hx : x < b) (hy : y < b) (hc : cin ≤ 1) :
    (carryStep x y cin b).1 + b * (carryStep x y cin b).2 = cin + x + y ∧ (carryStep x y cin b).1 < b ∧
      (carryStep x y cin b).2 ≤ 1 := by
  unfold carryStep
  by_cases h : b ≤ cin + x + y
  · simp only [h, if_true]; omega
  · simp only [h, if_false]; omega

/-- Two digit sequences that agree have the same value. -/
theorem digitsValue_congr {b : Nat} {f g : Nat → Nat} {n : Nat} (h : ∀ i, i < n → f i = g i) :
    digitsValue b f n = digitsValue b g n := by
  induction n with
  | zero => rfl
  | succ n ih => rw [digitsValue, digitsValue, ih fun i hi => h i (by omega), h n (by omega)]

/-- Zeros above a number do not change its value. -/
theorem digitsValue_extend {b : Nat} {f : Nat → Nat} {n m : Nat} (hnm : n ≤ m) (h : ∀ i, n ≤ i → i < m → f i = 0) :
    digitsValue b f m = digitsValue b f n := by
  induction m with
  | zero => rw [Nat.le_zero.1 hnm]
  | succ m ih =>
    rcases Nat.lt_or_eq_of_le hnm with hlt | heq
    · rw [digitsValue, ih (by omega) fun i h1 h2 => h i h1 (by omega), h m (by omega) (by omega)]
      simp
    · rw [heq]

/-- The value of a list of digits is that of its digit function. -/
theorem digitsValue_list (b : Nat) (ds : List Nat) : digitsValue b (fun i => ds.getD i 0) ds.length = listValue b ds := by
  have shift : ∀ (f : Nat → Nat) (n : Nat), digitsValue b f (n + 1) = f 0 + b * digitsValue b (fun i => f (i + 1)) n := by
    intro f n
    induction n with
    | zero => simp [digitsValue]
    | succ n ih => rw [digitsValue, ih, digitsValue, pow_succ]; ring
  induction ds with
  | nil => rfl
  | cons d ds ih =>
    rw [List.length_cons, shift, listValue, ← ih]
    simp

/-- The loop of `ADD_ASSIGN` over `n` digits (42_carry_adder.md R127): the buffer keeps its form; the digits written are
digits of the base; with the carry they are exactly the two operands' sum; the digits from `n` up and the bits above
them are as before; and a top position where an operand is not 0 stays so unless it carries (R129). -/
theorem addLoop_spec {cap bpd b N : Nat} {xs ys : Nat → Nat} {m : Memory} (hm : m.wf) (hb : m.Below cap)
    (hroom : bpd * N ≤ 8 * cap) (hbp : b ≤ 2 ^ bpd) (n : Nat) (hn : n ≤ N) (hx : ∀ i, i < n → xs i < b)
    (hy : ∀ i, i < n → ys i < b) :
    (addLoop cap bpd b xs ys m n).1.wf ∧ (addLoop cap bpd b xs ys m n).1.Below cap ∧
      (addLoop cap bpd b xs ys m n).2 ≤ 1 ∧
      (∀ j, j < n → digitRead (addLoop cap bpd b xs ys m n).1 cap bpd j < b) ∧
      digitsValue b (digitRead (addLoop cap bpd b xs ys m n).1 cap bpd) n +
          (addLoop cap bpd b xs ys m n).2 * b ^ n = digitsValue b xs n + digitsValue b ys n ∧
      (∀ k, k < 8 * cap → bpd * n ≤ k → bitAt (addLoop cap bpd b xs ys m n).1 cap k = bitAt m cap k) ∧
      (1 ≤ n → xs (n - 1) ≠ 0 ∨ ys (n - 1) ≠ 0 → (addLoop cap bpd b xs ys m n).2 = 0 →
        digitRead (addLoop cap bpd b xs ys m n).1 cap bpd (n - 1) ≠ 0) := by
  induction n with
  | zero => exact ⟨hm, hb, by simp [addLoop], by omega, by simp [addLoop, digitsValue], fun _ _ _ => rfl, by omega⟩
  | succ n ih =>
    obtain ⟨h1, h2, h3, h4, h5, h6, -⟩ := ih (by omega) (fun i hi => hx i (by omega)) (fun i hi => hy i (by omega))
    obtain ⟨hsum, hlt, hcar⟩ := carryStep_spec (hx n (by omega)) (hy n (by omega)) h3
    have hnN : n < N := by omega
    have hfit : (carryStep (xs n) (ys n) (addLoop cap bpd b xs ys m n).2 b).1 < 2 ^ bpd := by omega
    have hread : ∀ j, j < N → digitRead (addLoop cap bpd b xs ys m (n + 1)).1 cap bpd j =
        if j = n then (carryStep (xs n) (ys n) (addLoop cap bpd b xs ys m n).2 b).1
        else digitRead (addLoop cap bpd b xs ys m n).1 cap bpd j :=
      fun j hj => digitRead_digitWrite h1 hroom hnN hj hfit
    have hcarry : (addLoop cap bpd b xs ys m (n + 1)).2 =
        (carryStep (xs n) (ys n) (addLoop cap bpd b xs ys m n).2 b).2 := rfl
    refine ⟨wf_digitWrite h1 _ _ _ _, below_digitWrite h2 hroom hnN _, ?_, ?_, ?_, ?_, ?_⟩
    · rw [hcarry]; exact hcar
    · intro j hj
      rw [hread j (by omega)]
      split
      · exact hlt
      · exact h4 j (by omega)
    · rw [hcarry, digitsValue, digitsValue, digitsValue, hread n hnN, if_pos rfl,
        digitsValue_congr (g := digitRead (addLoop cap bpd b xs ys m n).1 cap bpd) fun i hi => by
          rw [hread i (by omega), if_neg (by omega)]]
      calc _ = digitsValue b (digitRead (addLoop cap bpd b xs ys m n).1 cap bpd) n +
            ((carryStep (xs n) (ys n) (addLoop cap bpd b xs ys m n).2 b).1 +
              b * (carryStep (xs n) (ys n) (addLoop cap bpd b xs ys m n).2 b).2) * b ^ n := by
            rw [pow_succ]; ring
        _ = (digitsValue b (digitRead (addLoop cap bpd b xs ys m n).1 cap bpd) n +
              (addLoop cap bpd b xs ys m n).2 * b ^ n) + (xs n + ys n) * b ^ n := by rw [hsum]; ring
        _ = _ := by rw [h5]; ring
    · intro k hk hout
      rw [addLoop]
      rw [bitAt_digitWrite_apart h1 hroom hnN hk (.inr hout)]
      exact h6 k hk (le_trans (Nat.mul_le_mul_left _ (by omega)) hout)
    · intro _ hne hc0
      rw [hcarry] at hc0
      simp only [Nat.add_sub_cancel] at hne ⊢
      rw [hread n hnN, if_pos rfl]
      rw [hc0] at hsum
      omega

end Sys2Proof.Laws
end

