-- ==== Sys2Proof/Laws/State.lean ====
section
/-! SUPPORT. One lemma per field per update of State, true by definition, so that no proof unfolds a record update. -/

namespace Sys2Proof.Laws

open Sys2Proof.Machine

/-! ## A slot replaced -/

@[simp] theorem setSlot_params (s : State) (a : Nat) (sl : Slot) : (s.setSlot a sl).params = s.params := rfl
@[simp] theorem setSlot_cmd (s : State) (a : Nat) (sl : Slot) : (s.setSlot a sl).cmd = s.cmd := rfl
@[simp] theorem setSlot_arg0 (s : State) (a : Nat) (sl : Slot) : (s.setSlot a sl).arg0 = s.arg0 := rfl
@[simp] theorem setSlot_arg1 (s : State) (a : Nat) (sl : Slot) : (s.setSlot a sl).arg1 = s.arg1 := rfl
@[simp] theorem setSlot_arg2 (s : State) (a : Nat) (sl : Slot) : (s.setSlot a sl).arg2 = s.arg2 := rfl
@[simp] theorem setSlot_result (s : State) (a : Nat) (sl : Slot) : (s.setSlot a sl).result = s.result := rfl
@[simp] theorem setSlot_status (s : State) (a : Nat) (sl : Slot) : (s.setSlot a sl).status = s.status := rfl
@[simp] theorem setSlot_latch (s : State) (a : Nat) (sl : Slot) : (s.setSlot a sl).latch = s.latch := rfl
@[simp] theorem setSlot_bf (s : State) (a : Nat) (sl : Slot) : (s.setSlot a sl).bf = s.bf := rfl
@[simp] theorem setSlot_bfLen (s : State) (a : Nat) (sl : Slot) : (s.setSlot a sl).bfLen = s.bfLen := rfl
@[simp] theorem setSlot_slots (s : State) (a : Nat) (sl : Slot) : (s.setSlot a sl).slots = s.slots.set a sl := rfl
@[simp] theorem setSlot_schedule (s : State) (a : Nat) (sl : Slot) : (s.setSlot a sl).schedule = s.schedule := rfl
@[simp] theorem setSlot_observed (s : State) (a : Nat) (sl : Slot) : (s.setSlot a sl).observed = s.observed := rfl
@[simp] theorem setSlot_draws (s : State) (a : Nat) (sl : Slot) : (s.setSlot a sl).draws = s.draws := rfl

/-! ## Fault entry (60_exceptions.md R139) -/

@[simp] theorem takeFault_params (s : State) (c : FaultCause) : (s.takeFault c).params = s.params := rfl
@[simp] theorem takeFault_cmd (s : State) (c : FaultCause) : (s.takeFault c).cmd = s.cmd := rfl
@[simp] theorem takeFault_arg0 (s : State) (c : FaultCause) : (s.takeFault c).arg0 = s.arg0 := rfl
@[simp] theorem takeFault_arg1 (s : State) (c : FaultCause) : (s.takeFault c).arg1 = s.arg1 := rfl
@[simp] theorem takeFault_arg2 (s : State) (c : FaultCause) : (s.takeFault c).arg2 = s.arg2 := rfl
@[simp] theorem takeFault_result (s : State) (c : FaultCause) : (s.takeFault c).result = s.result := rfl
@[simp] theorem takeFault_status (s : State) (c : FaultCause) : (s.takeFault c).status = s.status.enterFault c := rfl
@[simp] theorem takeFault_latch (s : State) (c : FaultCause) : (s.takeFault c).latch = s.latch := rfl
@[simp] theorem takeFault_bf (s : State) (c : FaultCause) : (s.takeFault c).bf = s.bf := rfl
@[simp] theorem takeFault_bfLen (s : State) (c : FaultCause) : (s.takeFault c).bfLen = s.bfLen := rfl
@[simp] theorem takeFault_slots (s : State) (c : FaultCause) : (s.takeFault c).slots = s.slots := rfl
@[simp] theorem takeFault_schedule (s : State) (c : FaultCause) : (s.takeFault c).schedule = s.schedule := rfl
@[simp] theorem takeFault_observed (s : State) (c : FaultCause) : (s.takeFault c).observed = s.observed := rfl
@[simp] theorem takeFault_draws (s : State) (c : FaultCause) : (s.takeFault c).draws = s.draws := rfl

/-! ## A CMD write while busy (60_exceptions.md R140) -/

@[simp] theorem cmdWhileBusy_params (s : State) : (s.cmdWhileBusy).params = s.params := rfl
@[simp] theorem cmdWhileBusy_cmd (s : State) : (s.cmdWhileBusy).cmd = s.cmd := rfl
@[simp] theorem cmdWhileBusy_arg0 (s : State) : (s.cmdWhileBusy).arg0 = s.arg0 := rfl
@[simp] theorem cmdWhileBusy_arg1 (s : State) : (s.cmdWhileBusy).arg1 = s.arg1 := rfl
@[simp] theorem cmdWhileBusy_arg2 (s : State) : (s.cmdWhileBusy).arg2 = s.arg2 := rfl
@[simp] theorem cmdWhileBusy_result (s : State) : (s.cmdWhileBusy).result = Config.freeResult s.draws := rfl
@[simp] theorem cmdWhileBusy_status (s : State) : (s.cmdWhileBusy).status = { s.status.enterFault .cmdWhileBusy with err := Config.freeErr s.draws } := rfl
@[simp] theorem cmdWhileBusy_latch (s : State) : (s.cmdWhileBusy).latch = s.latch := rfl
@[simp] theorem cmdWhileBusy_bf (s : State) : (s.cmdWhileBusy).bf = s.bf := rfl
@[simp] theorem cmdWhileBusy_bfLen (s : State) : (s.cmdWhileBusy).bfLen = s.bfLen := rfl
@[simp] theorem cmdWhileBusy_slots (s : State) : (s.cmdWhileBusy).slots = s.slots := rfl
@[simp] theorem cmdWhileBusy_schedule (s : State) : (s.cmdWhileBusy).schedule = s.schedule := rfl
@[simp] theorem cmdWhileBusy_observed (s : State) : (s.cmdWhileBusy).observed = s.observed := rfl
@[simp] theorem cmdWhileBusy_draws (s : State) : (s.cmdWhileBusy).draws = s.draws + 1 := rfl

/-! ## Reset (70_reset_and_hazards.md R153) -/

@[simp] theorem hostReset_params (s : State) : (s.hostReset).params = s.params := rfl
@[simp] theorem hostReset_cmd (s : State) : (s.hostReset).cmd = 0 := rfl
@[simp] theorem hostReset_arg0 (s : State) : (s.hostReset).arg0 = 0 := rfl
@[simp] theorem hostReset_arg1 (s : State) : (s.hostReset).arg1 = 0 := rfl
@[simp] theorem hostReset_arg2 (s : State) : (s.hostReset).arg2 = 0 := rfl
@[simp] theorem hostReset_result (s : State) : (s.hostReset).result = 0 := rfl
@[simp] theorem hostReset_status (s : State) : (s.hostReset).status = Status.zero := rfl
@[simp] theorem hostReset_latch (s : State) : (s.hostReset).latch = { word := 0, a0 := 0, a1 := 0, a2 := 0 } := rfl
@[simp] theorem hostReset_bf (s : State) : (s.hostReset).bf = [] := rfl
@[simp] theorem hostReset_bfLen (s : State) : (s.hostReset).bfLen = 0 := rfl
@[simp] theorem hostReset_slots (s : State) : (s.hostReset).slots = List.replicate s.params.numSlots Slot.free := rfl
@[simp] theorem hostReset_schedule (s : State) : (s.hostReset).schedule = s.schedule := rfl
@[simp] theorem hostReset_observed (s : State) : (s.hostReset).observed = s.observed := rfl
@[simp] theorem hostReset_draws (s : State) : (s.hostReset).draws = s.draws := rfl

/-! ## The state after reset (10_state.md R41) -/

@[simp] theorem resetWith_params (p : Params) : (State.resetWith p).params = p := rfl
@[simp] theorem resetWith_cmd (p : Params) : (State.resetWith p).cmd = 0 := rfl
@[simp] theorem resetWith_arg0 (p : Params) : (State.resetWith p).arg0 = 0 := rfl
@[simp] theorem resetWith_arg1 (p : Params) : (State.resetWith p).arg1 = 0 := rfl
@[simp] theorem resetWith_arg2 (p : Params) : (State.resetWith p).arg2 = 0 := rfl
@[simp] theorem resetWith_result (p : Params) : (State.resetWith p).result = 0 := rfl
@[simp] theorem resetWith_status (p : Params) : (State.resetWith p).status = Status.zero := rfl
@[simp] theorem resetWith_latch (p : Params) : (State.resetWith p).latch = { word := 0, a0 := 0, a1 := 0, a2 := 0 } := rfl
@[simp] theorem resetWith_bf (p : Params) : (State.resetWith p).bf = [] := rfl
@[simp] theorem resetWith_bfLen (p : Params) : (State.resetWith p).bfLen = 0 := rfl
@[simp] theorem resetWith_slots (p : Params) : (State.resetWith p).slots = List.replicate p.numSlots Slot.free := rfl
@[simp] theorem resetWith_schedule (p : Params) : (State.resetWith p).schedule = [] := rfl
@[simp] theorem resetWith_observed (p : Params) : (State.resetWith p).observed = [] := rfl
@[simp] theorem resetWith_draws (p : Params) : (State.resetWith p).draws = 0 := rfl

/-! ## Completion with Ok (30_encoding.md R75) -/

@[simp] theorem complete_ok_params (s t : State) : (complete s (.ok t)).params = t.params := rfl
@[simp] theorem complete_ok_cmd (s t : State) : (complete s (.ok t)).cmd = t.cmd := rfl
@[simp] theorem complete_ok_arg0 (s t : State) : (complete s (.ok t)).arg0 = t.arg0 := rfl
@[simp] theorem complete_ok_arg1 (s t : State) : (complete s (.ok t)).arg1 = t.arg1 := rfl
@[simp] theorem complete_ok_arg2 (s t : State) : (complete s (.ok t)).arg2 = t.arg2 := rfl
@[simp] theorem complete_ok_result (s t : State) : (complete s (.ok t)).result = t.result := rfl
@[simp] theorem complete_ok_status (s t : State) : (complete s (.ok t)).status = t.status.completeOk := rfl
@[simp] theorem complete_ok_latch (s t : State) : (complete s (.ok t)).latch = t.latch := rfl
@[simp] theorem complete_ok_bf (s t : State) : (complete s (.ok t)).bf = t.bf := rfl
@[simp] theorem complete_ok_bfLen (s t : State) : (complete s (.ok t)).bfLen = t.bfLen := rfl
@[simp] theorem complete_ok_slots (s t : State) : (complete s (.ok t)).slots = t.slots := rfl
@[simp] theorem complete_ok_schedule (s t : State) : (complete s (.ok t)).schedule = t.schedule := rfl
@[simp] theorem complete_ok_observed (s t : State) : (complete s (.ok t)).observed = t.observed := rfl
@[simp] theorem complete_ok_draws (s t : State) : (complete s (.ok t)).draws = t.draws := rfl

/-! ## Completion with Ok and a result (30_encoding.md R75) -/

@[simp] theorem complete_okValue_params (s t : State) (v : Nat) : (complete s (.okValue t v)).params = t.params := rfl
@[simp] theorem complete_okValue_cmd (s t : State) (v : Nat) : (complete s (.okValue t v)).cmd = t.cmd := rfl
@[simp] theorem complete_okValue_arg0 (s t : State) (v : Nat) : (complete s (.okValue t v)).arg0 = t.arg0 := rfl
@[simp] theorem complete_okValue_arg1 (s t : State) (v : Nat) : (complete s (.okValue t v)).arg1 = t.arg1 := rfl
@[simp] theorem complete_okValue_arg2 (s t : State) (v : Nat) : (complete s (.okValue t v)).arg2 = t.arg2 := rfl
@[simp] theorem complete_okValue_result (s t : State) (v : Nat) : (complete s (.okValue t v)).result = BitVec.ofNat 64 v := rfl
@[simp] theorem complete_okValue_status (s t : State) (v : Nat) : (complete s (.okValue t v)).status = t.status.completeOk := rfl
@[simp] theorem complete_okValue_latch (s t : State) (v : Nat) : (complete s (.okValue t v)).latch = t.latch := rfl
@[simp] theorem complete_okValue_bf (s t : State) (v : Nat) : (complete s (.okValue t v)).bf = t.bf := rfl
@[simp] theorem complete_okValue_bfLen (s t : State) (v : Nat) : (complete s (.okValue t v)).bfLen = t.bfLen := rfl
@[simp] theorem complete_okValue_slots (s t : State) (v : Nat) : (complete s (.okValue t v)).slots = t.slots := rfl
@[simp] theorem complete_okValue_schedule (s t : State) (v : Nat) : (complete s (.okValue t v)).schedule = t.schedule := rfl
@[simp] theorem complete_okValue_observed (s t : State) (v : Nat) : (complete s (.okValue t v)).observed = t.observed := rfl
@[simp] theorem complete_okValue_draws (s t : State) (v : Nat) : (complete s (.okValue t v)).draws = t.draws := rfl

/-! ## Completion with an error (30_encoding.md R75) -/

@[simp] theorem complete_error_params (s : State) (e : ErrCode) : (complete s (.error e)).params = s.params := rfl
@[simp] theorem complete_error_cmd (s : State) (e : ErrCode) : (complete s (.error e)).cmd = s.cmd := rfl
@[simp] theorem complete_error_arg0 (s : State) (e : ErrCode) : (complete s (.error e)).arg0 = s.arg0 := rfl
@[simp] theorem complete_error_arg1 (s : State) (e : ErrCode) : (complete s (.error e)).arg1 = s.arg1 := rfl
@[simp] theorem complete_error_arg2 (s : State) (e : ErrCode) : (complete s (.error e)).arg2 = s.arg2 := rfl
@[simp] theorem complete_error_result (s : State) (e : ErrCode) : (complete s (.error e)).result = s.result := rfl
@[simp] theorem complete_error_status (s : State) (e : ErrCode) : (complete s (.error e)).status = s.status.completeError e := rfl
@[simp] theorem complete_error_latch (s : State) (e : ErrCode) : (complete s (.error e)).latch = s.latch := rfl
@[simp] theorem complete_error_bf (s : State) (e : ErrCode) : (complete s (.error e)).bf = s.bf := rfl
@[simp] theorem complete_error_bfLen (s : State) (e : ErrCode) : (complete s (.error e)).bfLen = s.bfLen := rfl
@[simp] theorem complete_error_slots (s : State) (e : ErrCode) : (complete s (.error e)).slots = s.slots := rfl
@[simp] theorem complete_error_schedule (s : State) (e : ErrCode) : (complete s (.error e)).schedule = s.schedule := rfl
@[simp] theorem complete_error_observed (s : State) (e : ErrCode) : (complete s (.error e)).observed = s.observed := rfl
@[simp] theorem complete_error_draws (s : State) (e : ErrCode) : (complete s (.error e)).draws = s.draws := rfl

/-! ## Completion with a fault -/

@[simp] theorem complete_fault (s : State) (c : FaultCause) : complete s (.fault c) = s.takeFault c := rfl

/-! ## A host read (20_memory.md R48) -/

@[simp] theorem hostReadReg_params (s : State) (r : WindowReg) : (hostReadReg s r).params = s.params := rfl
@[simp] theorem hostReadReg_cmd (s : State) (r : WindowReg) : (hostReadReg s r).cmd = s.cmd := rfl
@[simp] theorem hostReadReg_arg0 (s : State) (r : WindowReg) : (hostReadReg s r).arg0 = s.arg0 := rfl
@[simp] theorem hostReadReg_arg1 (s : State) (r : WindowReg) : (hostReadReg s r).arg1 = s.arg1 := rfl
@[simp] theorem hostReadReg_arg2 (s : State) (r : WindowReg) : (hostReadReg s r).arg2 = s.arg2 := rfl
@[simp] theorem hostReadReg_result (s : State) (r : WindowReg) : (hostReadReg s r).result = s.result := rfl
@[simp] theorem hostReadReg_status (s : State) (r : WindowReg) : (hostReadReg s r).status = s.status := rfl
@[simp] theorem hostReadReg_latch (s : State) (r : WindowReg) : (hostReadReg s r).latch = s.latch := rfl
@[simp] theorem hostReadReg_bf (s : State) (r : WindowReg) : (hostReadReg s r).bf = s.bf := rfl
@[simp] theorem hostReadReg_bfLen (s : State) (r : WindowReg) : (hostReadReg s r).bfLen = s.bfLen := rfl
@[simp] theorem hostReadReg_slots (s : State) (r : WindowReg) : (hostReadReg s r).slots = s.slots := rfl
@[simp] theorem hostReadReg_schedule (s : State) (r : WindowReg) : (hostReadReg s r).schedule = s.schedule := rfl
@[simp] theorem hostReadReg_observed (s : State) (r : WindowReg) : (hostReadReg s r).observed = s.observed ++ [windowValue s r] := rfl
@[simp] theorem hostReadReg_draws (s : State) (r : WindowReg) : (hostReadReg s r).draws = if readDraws s r then s.draws + 1 else s.draws := rfl

/-! ## A pending command -/

@[simp] theorem pendingCommand_params (s : State) (v : Word) : (pendingCommand s v).params = s.params := rfl
@[simp] theorem pendingCommand_cmd (s : State) (v : Word) : (pendingCommand s v).cmd = v := rfl
@[simp] theorem pendingCommand_arg0 (s : State) (v : Word) : (pendingCommand s v).arg0 = s.arg0 := rfl
@[simp] theorem pendingCommand_arg1 (s : State) (v : Word) : (pendingCommand s v).arg1 = s.arg1 := rfl
@[simp] theorem pendingCommand_arg2 (s : State) (v : Word) : (pendingCommand s v).arg2 = s.arg2 := rfl
@[simp] theorem pendingCommand_result (s : State) (v : Word) : (pendingCommand s v).result = s.result := rfl
@[simp] theorem pendingCommand_status (s : State) (v : Word) : (pendingCommand s v).status = s.status.issue := rfl
@[simp] theorem pendingCommand_latch (s : State) (v : Word) : (pendingCommand s v).latch = { word := v, a0 := s.arg0, a1 := s.arg1, a2 := s.arg2 } := rfl
@[simp] theorem pendingCommand_bf (s : State) (v : Word) : (pendingCommand s v).bf = s.bf := rfl
@[simp] theorem pendingCommand_bfLen (s : State) (v : Word) : (pendingCommand s v).bfLen = s.bfLen := rfl
@[simp] theorem pendingCommand_slots (s : State) (v : Word) : (pendingCommand s v).slots = s.slots := rfl
@[simp] theorem pendingCommand_schedule (s : State) (v : Word) : (pendingCommand s v).schedule = .engine :: s.schedule := rfl
@[simp] theorem pendingCommand_observed (s : State) (v : Word) : (pendingCommand s v).observed = s.observed := rfl
@[simp] theorem pendingCommand_draws (s : State) (v : Word) : (pendingCommand s v).draws = s.draws := rfl

/-! ## The status register -/

@[simp] theorem completeOk_busy (t : Status) : (t.completeOk).busy = false := rfl
@[simp] theorem completeOk_fault (t : Status) : (t.completeOk).fault = t.fault := rfl
@[simp] theorem completeOk_err (t : Status) : (t.completeOk).err = 0 := rfl
@[simp] theorem completeOk_cause (t : Status) : (t.completeOk).cause = t.cause := rfl
@[simp] theorem completeError_busy (t : Status) (e : ErrCode) : (t.completeError e).busy = false := rfl
@[simp] theorem completeError_fault (t : Status) (e : ErrCode) : (t.completeError e).fault = t.fault := rfl
@[simp] theorem completeError_err (t : Status) (e : ErrCode) : (t.completeError e).err = e.code := rfl
@[simp] theorem completeError_cause (t : Status) (e : ErrCode) : (t.completeError e).cause = t.cause := rfl
@[simp] theorem enterFault_busy (t : Status) (c : FaultCause) : (t.enterFault c).busy = false := rfl
@[simp] theorem enterFault_fault (t : Status) (c : FaultCause) : (t.enterFault c).fault = true := rfl
@[simp] theorem enterFault_err (t : Status) (c : FaultCause) : (t.enterFault c).err = t.err := rfl
@[simp] theorem enterFault_cause (t : Status) (c : FaultCause) : (t.enterFault c).cause = c := rfl
@[simp] theorem issue_busy (t : Status) : (t.issue).busy = true := rfl
@[simp] theorem issue_fault (t : Status) : (t.issue).fault = t.fault := rfl
@[simp] theorem issue_err (t : Status) : (t.issue).err = t.err := rfl
@[simp] theorem issue_cause (t : Status) : (t.issue).cause = t.cause := rfl
@[simp] theorem statusZero_busy : (Status.zero).busy = false := rfl
@[simp] theorem statusZero_fault : (Status.zero).fault = false := rfl
@[simp] theorem statusZero_err : (Status.zero).err = 0 := rfl
@[simp] theorem statusZero_cause : (Status.zero).cause = .none := rfl

/-! ## The slot file -/

/-- The replaced slot, where it exists. -/
theorem slotAt_setSlot_same {s : State} {a : Nat} (ha : a < s.slots.length) (sl : Slot) :
    (s.setSlot a sl).slotAt a = sl := by
  simp [State.slotAt, State.setSlot, ha]

/-- Every other slot is as before (20_memory.md R57). -/
theorem slotAt_setSlot_other (s : State) {a j : Nat} (h : a ≠ j) (sl : Slot) :
    (s.setSlot a sl).slotAt j = s.slotAt j := by
  simp [State.slotAt, State.setSlot, h]

/-- A slot is one of the slot file, or none is there and it reads as FREE. -/
theorem slotAt_mem (s : State) (a : Nat) : s.slotAt a ∈ s.slots ∨ s.slotAt a = Slot.free := by
  unfold State.slotAt
  by_cases h : a < s.slots.length
  · exact .inl (by rw [List.getD_eq_getElem _ _ h]; exact List.getElem_mem h)
  · exact .inr (List.getD_eq_default _ _ (by omega))

end Sys2Proof.Laws
end

