-- ==== Sys2Proof/Laws/Commands.lean ====
section
/-! SUPPORT. What the shared operand checks answer, and what any command can do: how it ends, and what it leaves alone. -/

namespace Sys2Proof.Laws

open Sys2Proof.Machine

/-- A slot operand: `BAD_SLOT`, or the command goes on (30_encoding.md R77). -/
theorem needSlot_cases (s : State) (a : Nat) (k : CmdOutcome) :
    (s.params.numSlots ≤ a ∧ needSlot s a k = .fault .badSlot) ∨ (a < s.params.numSlots ∧ needSlot s a k = k) := by
  unfold needSlot
  by_cases h : s.params.numSlots ≤ a
  · exact .inl ⟨h, if_pos h⟩
  · exact .inr ⟨by omega, if_neg h⟩

/-- A slot in the wanted state, or `SLOT_STATE` (60_exceptions.md R138). -/
theorem needState_cases (s : State) (a : Nat) (want : SlotState) (k : Slot → CmdOutcome) :
    ((s.slotAt a).state ≠ want ∧ needState s a want k = .fault .slotState) ∨
      ((s.slotAt a).state = want ∧ needState s a want k = k (s.slotAt a)) := by
  unfold needState
  by_cases h : (s.slotAt a).state = want
  · exact .inr ⟨h, if_pos h⟩
  · exact .inl ⟨h, if_neg h⟩

/-- The one slot operand of a format-S command: `BAD_SLOT`, then `SLOT_STATE`, or the command goes on. -/
theorem slotOperand_cases (s : State) (a : Nat) (want : SlotState) (k : Slot → CmdOutcome) :
    (s.params.numSlots ≤ a ∧ slotOperand s a want k = .fault .badSlot) ∨
      (a < s.params.numSlots ∧ (s.slotAt a).state ≠ want ∧ slotOperand s a want k = .fault .slotState) ∨
      (a < s.params.numSlots ∧ (s.slotAt a).state = want ∧ slotOperand s a want k = k (s.slotAt a)) := by
  unfold slotOperand
  rcases needSlot_cases s a (needState s a want k) with ⟨h, e⟩ | ⟨h, e⟩
  · exact .inl ⟨h, e⟩
  · rcases needState_cases s a want k with ⟨h', e'⟩ | ⟨h', e'⟩
    · exact .inr (.inl ⟨h, h', e.trans e'⟩)
    · exact .inr (.inr ⟨h, h', e.trans e'⟩)

/-- The command an instruction runs, before the engine completes it. -/
def commandOf : Instr → State → CmdOutcome
  | .bfSetLen => bfSetLen
  | .bfGetLen => bfGetLen
  | .bfWriteByte => bfWriteByte
  | .bfReadByte => bfReadByte
  | .bfGetBits => bfGetBits
  | .bfSetBits => bfSetBits
  | .bfGetSpan => bfGetSpan
  | .bfSetSpan => bfSetSpan
  | .construct a => construct a
  | .release a => release a
  | .digitAt a => digitAt a
  | .setDigitAt a => setDigitAt a
  | .getBase a => getBase a
  | .getBpd a => getBpd a
  | .getDigitCount a => getDigitCount a
  | .getCapacity a => getCapacity a
  | .addAssign a b => addAssign a b

/-- Every instruction answers a next state: its command's outcome, completed (30_encoding.md R75). -/
theorem exec_eq (i : Instr) (s : State) : exec i s = .next (complete s (commandOf i s)) := by cases i <;> rfl

/-- What a command's outcome can be: a fault cause of its own checks, an error with nothing else, a value with the state
as it was, or a state that differs in `BF`, `BF_LEN` and the slots alone (60_exceptions.md R135). -/
def OutcomeBounded (s : State) : CmdOutcome → Prop
  | .ok t => t = { s with bf := t.bf, bfLen := t.bfLen, slots := t.slots }
  | .okValue t _ => t = s
  | .error _ => True
  | .fault c => c = .badSlot ∨ c = .slotState ∨ c = .range ∨ c = .valueTooWide ∨ c = .index

theorem bounded_needSlot {s : State} {a : Nat} {k : CmdOutcome} (h : OutcomeBounded s k) :
    OutcomeBounded s (needSlot s a k) := by
  rcases needSlot_cases s a k with ⟨-, e⟩ | ⟨-, e⟩
  · rw [e]; simp [OutcomeBounded]
  · rwa [e]

theorem bounded_needState {s : State} {a : Nat} {want : SlotState} {k : Slot → CmdOutcome}
    (h : OutcomeBounded s (k (s.slotAt a))) : OutcomeBounded s (needState s a want k) := by
  rcases needState_cases s a want k with ⟨-, e⟩ | ⟨-, e⟩
  · rw [e]; simp [OutcomeBounded]
  · rwa [e]

theorem bounded_slotOperand {s : State} {a : Nat} {want : SlotState} {k : Slot → CmdOutcome}
    (h : OutcomeBounded s (k (s.slotAt a))) : OutcomeBounded s (slotOperand s a want k) :=
  bounded_needSlot (bounded_needState h)

theorem getBits_error {m : Memory} {len start stop : Nat} {c : FaultCause}
    (h : getBits m len start stop = .error c) : c = .range := by
  unfold getBits at h
  split at h <;> cases h
  rfl

theorem setBits_error {m : Memory} {len start stop v : Nat} {c : FaultCause}
    (h : setBits m len start stop v = .error c) : c = .range ∨ c = .valueTooWide := by
  unfold setBits at h
  split at h
  · split at h <;> cases h
    exact .inr rfl
  · cases h; exact .inl rfl

theorem bounded_returnRead {s : State} {r : Except FaultCause Nat} (h : ∀ c, r = .error c → c = .range) :
    OutcomeBounded s (returnRead s r) := by
  cases r with
  | ok v => rfl
  | error c => have := h c rfl; subst this; simp [returnRead, OutcomeBounded]

theorem bounded_storeBf {s : State} {r : Except FaultCause Memory}
    (h : ∀ c, r = .error c → c = .range ∨ c = .valueTooWide) : OutcomeBounded s (storeBf s r) := by
  cases r with
  | ok m => rfl
  | error c => rcases h c rfl with rfl | rfl <;> simp [storeBf, OutcomeBounded]

/-- Every command's outcome is bounded so (60_exceptions.md R135, R137, R139). -/
theorem commandOf_bounded (i : Instr) (s : State) : OutcomeBounded s (commandOf i s) := by
  cases i with
  | bfSetLen => simp only [commandOf, bfSetLen]; split <;> simp [OutcomeBounded]
  | bfGetLen => rfl
  | bfWriteByte =>
    simp only [commandOf, bfWriteByte]
    split
    · simp [OutcomeBounded]
    · split <;> simp [OutcomeBounded]
  | bfReadByte => simp only [commandOf, bfReadByte]; split <;> simp [OutcomeBounded]
  | bfGetBits => exact bounded_returnRead fun _ => getBits_error
  | bfSetBits => exact bounded_storeBf fun _ => setBits_error
  | bfGetSpan => exact bounded_returnRead fun _ => getBits_error
  | bfSetSpan => exact bounded_storeBf fun _ => setBits_error
  | construct a =>
    refine bounded_slotOperand ?_
    split
    · trivial
    · dsimp only
      split
      · trivial
      · rfl
  | release a => exact bounded_slotOperand rfl
  | digitAt a => refine bounded_slotOperand ?_; split <;> simp [OutcomeBounded]
  | setDigitAt a =>
    refine bounded_slotOperand ?_
    split
    · simp [OutcomeBounded]
    · split
      · simp [OutcomeBounded]
      · rfl
  | getBase a => exact bounded_slotOperand rfl
  | getBpd a => exact bounded_slotOperand rfl
  | getDigitCount a => exact bounded_slotOperand rfl
  | getCapacity a => exact bounded_slotOperand rfl
  | addAssign a b =>
    refine bounded_needSlot (bounded_needSlot (bounded_needState (bounded_needState ?_)))
    split
    · trivial
    · split
      · trivial
      · rfl

end Sys2Proof.Laws
end

