-- ==== Sys2Proof/Laws/PerInstr.lean ====
section
/-! SUPPORT. The family of lemmas stated once per command: the encoder's word selects the command's own row of
spec/opcode_table.json (spec/INDEX.md: a value `w` selects a row iff `w &&& mask = match`). -/

namespace Sys2Proof.Laws

/-- The word of a well-formed command selects the command's row of the opcode table. -/
def EncodedWordSelectsRow.Statement (i : Instr) : Prop :=
  i.WellFormed → encode i &&& (tableRow i).2 = (tableRow i).1

/-- A mask that keeps the low byte and the bits from `top` up, and drops those between, turns `op + 2^8 · x` into `op`
for an opcode byte and a smaller `x`. -/
theorem masked_opcode {mask : Word} {op x top : Nat} (hop : op < 2 ^ 8) (hx : x < 2 ^ (top - 8)) (htop : 8 ≤ top)
    (h64 : top ≤ 64) (hlow : ∀ j < 8, mask.getLsbD j = true) (hmid : ∀ j < top, 8 ≤ j → mask.getLsbD j = false) :
    BitVec.ofNat 64 (2 ^ 8 * x + op) &&& mask = BitVec.ofNat 64 op := by
  apply BitVec.eq_of_getLsbD_eq
  intro j hj
  rw [BitVec.getLsbD_and, BitVec.getLsbD_ofNat, BitVec.getLsbD_ofNat, Nat.testBit_two_pow_mul_add x hop]
  have hhigh : ∀ k, 8 ≤ k → op.testBit k = false := fun k hk =>
    Nat.testBit_lt_two_pow (Nat.lt_of_lt_of_le hop (Nat.pow_le_pow_right (by decide) hk))
  by_cases h8 : j < 8
  · rw [if_pos h8, hlow j h8, Bool.and_true]
  · rw [if_neg h8, hhigh j (by omega)]
    by_cases ht : j < top
    · rw [hmid j ht (by omega), Bool.and_false, Bool.and_false]
    · have hxj : x.testBit (j - 8) = false :=
        Nat.testBit_lt_two_pow (Nat.lt_of_lt_of_le hx (Nat.pow_le_pow_right (by decide) (by omega)))
      rw [hxj, Bool.and_false, Bool.false_and]

/-- The mask of a format-S row leaves the field `A` open. -/
theorem packFields_s_masked {op a : Nat} (ha : a < 256) (hop : op < 256) :
    packFields op a 0 &&& 0xFFFFFFFFFFFF00FF = BitVec.ofNat 64 op := by
  rw [packFields, show op + a * 2 ^ 8 + 0 * 2 ^ 16 = 2 ^ 8 * a + op by omega]
  exact masked_opcode (top := 16) hop ha (by decide) (by decide) (by decide) (by decide)

/-- The mask of the format-SS row leaves the fields `A` and `B` open. -/
theorem packFields_ss_masked {op a b : Nat} (ha : a < 256) (hb : b < 256) (hop : op < 256) :
    packFields op a b &&& 0xFFFFFFFFFF0000FF = BitVec.ofNat 64 op := by
  rw [packFields, show op + a * 2 ^ 8 + b * 2 ^ 16 = 2 ^ 8 * (a + b * 2 ^ 8) + op by omega]
  exact masked_opcode (top := 24) hop (by omega) (by decide) (by decide) (by decide) (by decide)

theorem EncodedWordSelectsRow.bfSetLen : EncodedWordSelectsRow.Statement .bfSetLen := fun _ => by decide
theorem EncodedWordSelectsRow.bfGetLen : EncodedWordSelectsRow.Statement .bfGetLen := fun _ => by decide
theorem EncodedWordSelectsRow.bfWriteByte : EncodedWordSelectsRow.Statement .bfWriteByte := fun _ => by decide
theorem EncodedWordSelectsRow.bfReadByte : EncodedWordSelectsRow.Statement .bfReadByte := fun _ => by decide
theorem EncodedWordSelectsRow.bfGetBits : EncodedWordSelectsRow.Statement .bfGetBits := fun _ => by decide
theorem EncodedWordSelectsRow.bfSetBits : EncodedWordSelectsRow.Statement .bfSetBits := fun _ => by decide
theorem EncodedWordSelectsRow.bfGetSpan : EncodedWordSelectsRow.Statement .bfGetSpan := fun _ => by decide
theorem EncodedWordSelectsRow.bfSetSpan : EncodedWordSelectsRow.Statement .bfSetSpan := fun _ => by decide

theorem EncodedWordSelectsRow.construct (a : Nat) : EncodedWordSelectsRow.Statement (.construct a) :=
  fun h => packFields_s_masked (of_decide_eq_true h) (by decide)
theorem EncodedWordSelectsRow.release (a : Nat) : EncodedWordSelectsRow.Statement (.release a) :=
  fun h => packFields_s_masked (of_decide_eq_true h) (by decide)
theorem EncodedWordSelectsRow.digitAt (a : Nat) : EncodedWordSelectsRow.Statement (.digitAt a) :=
  fun h => packFields_s_masked (of_decide_eq_true h) (by decide)
theorem EncodedWordSelectsRow.setDigitAt (a : Nat) : EncodedWordSelectsRow.Statement (.setDigitAt a) :=
  fun h => packFields_s_masked (of_decide_eq_true h) (by decide)
theorem EncodedWordSelectsRow.getBase (a : Nat) : EncodedWordSelectsRow.Statement (.getBase a) :=
  fun h => packFields_s_masked (of_decide_eq_true h) (by decide)
theorem EncodedWordSelectsRow.getBpd (a : Nat) : EncodedWordSelectsRow.Statement (.getBpd a) :=
  fun h => packFields_s_masked (of_decide_eq_true h) (by decide)
theorem EncodedWordSelectsRow.getDigitCount (a : Nat) : EncodedWordSelectsRow.Statement (.getDigitCount a) :=
  fun h => packFields_s_masked (of_decide_eq_true h) (by decide)
theorem EncodedWordSelectsRow.getCapacity (a : Nat) : EncodedWordSelectsRow.Statement (.getCapacity a) :=
  fun h => packFields_s_masked (of_decide_eq_true h) (by decide)

theorem EncodedWordSelectsRow.addAssign (a b : Nat) : EncodedWordSelectsRow.Statement (.addAssign a b) := by
  intro h
  have h' : decide (SlotFits a) = true ∧ decide (SlotFits b) = true := by
    simpa [Instr.WellFormed, Instr.wellFormed] using h
  exact packFields_ss_masked (of_decide_eq_true h'.1) (of_decide_eq_true h'.2) (by decide)

end Sys2Proof.Laws
end

