-- ==== Sys2Proof/Laws/Slots.lean ====
section
/-! SUPPORT. What the invariants of a LIVE slot give, and what the three operations that build a LIVE slot answer:
`builtSlot` (41_packed_number.md R114), `Slot.withDigit` (R117) and `addInto` (42_carry_adder.md R127). -/

namespace Sys2Proof.Laws

open Sys2Proof.Machine

variable {M : Nat} {sl : Slot}

/-- A LIVE slot of a state with the invariant has the invariants of 10_state.md R36 to R40. -/
theorem liveInv_slotAt {s : State} (h : s.Inv) {a : Nat} (hl : (s.slotAt a).state = .live) :
    (s.slotAt a).LiveInv s.params.maxCapacityBytes := by
  rcases slotAt_mem s a with hm | hf
  · exact (h.slots_inv _ hm).live_inv hl
  · rw [hf] at hl; cases hl

theorem two_le_base (h : sl.LiveInv M) : 2 ≤ sl.base := h.base_range.1

theorem one_le_bpd (h : sl.LiveInv M) : 1 ≤ sl.bpd := by
  have h1 := two_le_base h
  have h2 := h.bpd_least.1
  by_contra hc
  have : sl.bpd = 0 := by omega
  rw [this] at h2
  simp at h2
  omega

theorem one_le_capacityBytes (h : sl.LiveInv M) : 1 ≤ sl.capacityBytes := by
  have : 1 * 1 ≤ sl.bpd * sl.digitCount := Nat.mul_le_mul (one_le_bpd h) h.count_pos
  have := h.room
  omega

/-- Every digit of the base fits the width. -/
theorem base_le_pow (h : sl.LiveInv M) : sl.base ≤ 2 ^ sl.bpd := by have := h.bpd_least.1; omega

/-- The whole digits of the buffer fit it, and the significant digits are among them. -/
theorem capDigits_spec (h : sl.LiveInv M) :
    sl.bpd * sl.capDigits ≤ 8 * sl.capacityBytes ∧ sl.digitCount ≤ sl.capDigits ∧ 1 ≤ sl.capDigits := by
  have h1 := one_le_bpd h
  have h3 := h.count_pos
  unfold Slot.capDigits
  have : sl.digitCount ≤ 8 * sl.capacityBytes / sl.bpd := by
    rw [Nat.le_div_iff_mul_le (by omega), Nat.mul_comm]
    exact h.room
  exact ⟨Nat.mul_div_le _ _, this, by omega⟩

/-- A digit from `digitCount` up is 0 (10_state.md R39). -/
theorem digit_eq_zero_of_le (h : sl.LiveInv M) {j : Nat} (h1 : sl.digitCount ≤ j) (h2 : j < sl.capDigits) :
    sl.digit j = 0 := by
  refine digitRead_eq_zero fun k h3 h4 => h.clear_above k (le_trans (Nat.mul_le_mul_left _ h1) h3) ?_
  have := digit_range_le h2 (capDigits_spec h).1
  omega

/-- A digit written into a LIVE slot: the invariants hold again, that digit is the value, the others are as before, and
the digits from the new count up are 0 (41_packed_number.md R117). -/
theorem withDigit_spec (h : sl.LiveInv M) {i v : Nat} (hi : i < sl.capDigits) (hv : v < sl.base) :
    (sl.withDigit i v).LiveInv M ∧
      (∀ j, j < sl.capDigits → (sl.withDigit i v).digit j = if j = i then v else sl.digit j) ∧
      (∀ j, (sl.withDigit i v).digitCount ≤ j → j < sl.capDigits → (sl.withDigit i v).digit j = 0) := by
  obtain ⟨c1, c2, c3⟩ := capDigits_spec h
  have hb := two_le_base h
  have hd : ∀ j, j < sl.capDigits → (sl.withDigit i v).digit j = if j = i then v else sl.digit j :=
    fun j hj => digitRead_digitWrite h.canonical c1 hi hj (lt_of_lt_of_le hv (base_le_pow h))
  obtain ⟨s1, s2, s3, s4⟩ := significantDigits_spec (digitWrite sl.buf sl.capacityBytes sl.bpd i v) sl.capacityBytes
    sl.bpd sl.capDigits
  have hlt : ∀ j, j < sl.capDigits → (sl.withDigit i v).digit j < sl.base := by
    intro j hj
    rw [hd j hj]
    split
    · exact hv
    · by_cases hjj : j < sl.digitCount
      · exact h.digits_lt j hjj
      · rw [digit_eq_zero_of_le h (by omega) hj]; omega
  have hcount : (sl.withDigit i v).digitCount ≤ sl.capDigits := le_trans s2 (by omega)
  refine ⟨?_, hd, s3⟩
  constructor
  · exact h.base_range
  · exact h.bpd_least
  · exact le_trans (Nat.mul_le_mul_left sl.bpd hcount) c1
  · exact fun j hj => hlt j (lt_of_lt_of_le hj hcount)
  · exact s1
  · exact s4
  · intro k h1 h2
    by_cases hk : k < sl.bpd * sl.capDigits
    · have hb := one_le_bpd h
      have hq : k / sl.bpd < sl.capDigits := by rwa [Nat.div_lt_iff_lt_mul (by omega), Nat.mul_comm]
      have hq2 : (sl.withDigit i v).digitCount ≤ k / sl.bpd := by
        rw [Nat.le_div_iff_mul_le (by omega), Nat.mul_comm]; exact h1
      have := Nat.div_add_mod k sl.bpd
      have := Nat.mod_lt k (show sl.bpd > 0 by omega)
      exact bitAt_of_digitRead_zero (s3 _ hq2 hq) (by omega) (by omega)
    · change bitAt (digitWrite sl.buf sl.capacityBytes sl.bpd i v) sl.capacityBytes k = false
      rw [bitAt_digitWrite_apart h.canonical c1 hi h2 (.inr (le_trans (Nat.mul_le_mul_left _ hi) (by omega)))]
      exact h.clear_above k (le_trans (Nat.mul_le_mul_left _ c2) (by omega)) h2
  · exact h.capacity_doubled
  · exact h.capacity_le
  · exact wf_digitWrite h.canonical _ _ _ _
  · exact below_digitWrite h.inside c1 hi v

/-- The slot that `CONSTRUCT` makes of a 64-bit value: its invariants, where its capacity is within the limit; its
value; and its capacity, the first doubling with room (41_packed_number.md R114). -/
theorem builtSlot_spec {x b : Nat} (hx : x < 2 ^ 64) (h1 : 2 ≤ b) (h2 : b ≤ 2 ^ 63 - 1)
    (hM : (builtSlot x b).capacityBytes ≤ M) :
    (builtSlot x b).LiveInv M ∧ (builtSlot x b).value = x ∧
      ∀ k, (builtSlot x b).bpd * (builtSlot x b).digitCount ≤ 8 * (ceilBytes (builtSlot x b).bpd * 2 ^ k) →
        (builtSlot x b).capacityBytes ≤ ceilBytes (builtSlot x b).bpd * 2 ^ k := by
  obtain ⟨m1, m2⟩ := minBitsNeeded_spec (x := b - 1) (by omega)
  obtain ⟨d1, d2, d3, d4, d5, d6, d7⟩ := digitsOf_spec h1 hx
  have hp : 1 ≤ minBitsNeeded (b - 1) := by
    by_contra hc
    have : minBitsNeeded (b - 1) = 0 := by omega
    rw [this] at m1
    simp at m1
    omega
  have hc : 1 ≤ ceilBytes (minBitsNeeded (b - 1)) := by unfold ceilBytes; omega
  obtain ⟨k, k1, k2, k3⟩ := growCapacity_spec (ceilBytes (minBitsNeeded (b - 1) * (digitsOf x b).length)) hc
  have hroom : minBitsNeeded (b - 1) * (digitsOf x b).length ≤
      8 * growCapacity (ceilBytes (minBitsNeeded (b - 1) * (digitsOf x b).length))
        (ceilBytes (minBitsNeeded (b - 1))) := by
    rw [← ceilBytes_le_iff, k1]; exact k2
  obtain ⟨w1, w2, w3, w4⟩ := writeDigits_spec hroom (digitsOf x b) (fun d hd => by have := d2 d hd; omega) []
    (by simp [Memory.wf]) (by simp [Memory.Below]) 0 (by simp)
  have hdig : ∀ j, j < (digitsOf x b).length → (builtSlot x b).digit j = (digitsOf x b).getD j 0 := by
    intro j hj
    have := w3 j hj
    rw [if_pos (by omega), Nat.sub_zero] at this
    exact this
  refine ⟨?_, ?_, ?_⟩
  · constructor
    · exact ⟨h1, h2⟩
    · exact ⟨m1, m2⟩
    · exact hroom
    · intro i hi
      rw [hdig i hi, List.getD_eq_getElem _ _ hi]
      exact d2 _ (List.getElem_mem hi)
    · exact d3
    · intro h
      change 1 < (digitsOf x b).length at h
      change (builtSlot x b).digit ((digitsOf x b).length - 1) ≠ 0
      rw [hdig _ (by omega)]
      intro hz
      apply d5 h
      rw [List.getLast?_eq_getElem?, List.getElem?_eq_getElem (by omega)]
      rw [List.getD_eq_getElem _ _ (by omega)] at hz
      rw [hz]
    · intro j h1 h2
      have := w4 j h2 (by rw [Nat.zero_add]; exact h1)
      exact this.trans (by unfold bitAt; simp [Memory.read, Config.unlistedByte])
    · exact ⟨k, k1⟩
    · exact hM
    · exact w1
    · exact w2
  · change digitsValue b (builtSlot x b).digit (digitsOf x b).length = x
    rw [digitsValue_congr hdig, digitsValue_list, d1]
  · intro j hj
    change minBitsNeeded (b - 1) * (digitsOf x b).length ≤ _ at hj
    change growCapacity (ceilBytes (minBitsNeeded (b - 1) * (digitsOf x b).length))
      (ceilBytes (minBitsNeeded (b - 1))) ≤ ceilBytes (minBitsNeeded (b - 1)) * 2 ^ j
    rw [← ceilBytes_le_iff] at hj
    change _ ≤ ceilBytes (minBitsNeeded (b - 1)) * 2 ^ j at hj
    rw [k1]
    by_contra hcon
    have hjk : j < k := by
      by_contra hh
      exact hcon (Nat.mul_le_mul_left _ (Nat.pow_le_pow_right (by omega) (by omega)))
    have := k3 j hjk
    omega

/-- A grown capacity is the least doubling with room (41_packed_number.md R110). -/
theorem ensureCapacity_least {sl g : Slot} {n : Nat} (hc : 1 ≤ sl.capacityBytes) (hg : ensureCapacity M sl n = .ok g)
    {k : Nat} (hk : sl.bpd * n ≤ 8 * (sl.capacityBytes * 2 ^ k)) : g.capacityBytes ≤ sl.capacityBytes * 2 ^ k := by
  rcases ensureCapacity_cases M sl n with ⟨-, he⟩ | ⟨-, hle, he⟩ | ⟨-, -, he⟩ <;> rw [he] at hg
  · obtain rfl := Except.ok.inj hg
    exact Nat.le_mul_of_pos_right _ (by positivity)
  · obtain rfl := Except.ok.inj hg
    obtain ⟨j, j1, j2, j3⟩ := growCapacity_spec (ceilBytes (sl.bpd * n)) hc
    change growCapacity _ _ ≤ _
    rw [j1]
    by_contra hcon
    have hjk : k < j := by
      by_contra hh
      exact hcon (Nat.mul_le_mul_left _ (Nat.pow_le_pow_right (by omega) (by omega)))
    have := j3 k hjk
    have := (ceilBytes_le_iff _ _).2 hk
    omega
  · cases hg

/-- `ADD_ASSIGN`'s loop and final carry on a grown LIVE destination: the invariants hold again, the value is the sum,
and the digit count is that of the loop or one more (42_carry_adder.md R127 to R129, R132). -/
theorem addInto_spec {d r g : Slot} (hd : d.LiveInv M) (hr : r.LiveInv M) (hb : d.base = r.base) {m : Nat}
    (hm : m = max d.digitCount r.digitCount) (hg : ensureCapacity M d (m + 1) = .ok g) :
    (addInto g d.addend r.addend m).LiveInv M ∧
      (addInto g d.addend r.addend m).value = d.value + r.value ∧
      ((addInto g d.addend r.addend m).digitCount = m ∨
        (addInto g d.addend r.addend m).digitCount = m + 1 ∧ (addInto g d.addend r.addend m).digit m = 1) ∧
      (addInto g d.addend r.addend m).state = d.state ∧ (addInto g d.addend r.addend m).base = d.base ∧
      (addInto g d.addend r.addend m).bpd = d.bpd ∧
      (addInto g d.addend r.addend m).capacityBytes = g.capacityBytes := by
  obtain ⟨e1, e2, e3, ⟨kk, e4⟩, e5, e6, e7, e8⟩ :=
    ensureCapacity_ok (one_le_capacityBytes hd) hd.capacity_le hd.canonical hd.inside hg
  have hgb : g.base = d.base := by rw [e8]
  have hgp : g.bpd = d.bpd := by rw [e8]
  have hgs : g.state = d.state := by rw [e8]
  have hbp := one_le_bpd hd
  have hbase := two_le_base hd
  have hm1 : 1 ≤ m := by have := hd.count_pos; omega
  have hxa : ∀ i, d.addend i < d.base := by
    intro i; unfold Slot.addend; split
    · exact hd.digits_lt i (by assumption)
    · omega
  have hya : ∀ i, r.addend i < d.base := by
    intro i; unfold Slot.addend; split
    · rw [hb]; exact hr.digits_lt i (by assumption)
    · omega
  have hroom : g.bpd * (m+1) ≤ 8 * g.capacityBytes := by rw [hgp]; exact e1
  have hbl : g.base ≤ 2^g.bpd := by rw [hgb,hgp]; exact base_le_pow hd
  have hclear : ∀ k, k < 8*g.capacityBytes → g.bpd * m ≤ k → bitAt g.buf g.capacityBytes k = false := by
    intro k h1 h2
    rw [e7 k h1]
    split
    · apply hd.clear_above k _ (by assumption)
      refine le_trans (Nat.mul_le_mul_left _ (by omega : d.digitCount ≤ m)) (by rw [← hgp]; exact h2)
    · rfl
  obtain ⟨a1, a2, a3, a4, a5, a6, a7⟩ := addLoop_spec (b := g.base) (xs := d.addend) (ys := r.addend) e5 e6 hroom hbl m
    (by omega) (fun i _ => by rw [hgb]; exact hxa i) (fun i _ => by rw [hgb]; exact hya i)
  have hvx : digitsValue g.base d.addend m = d.value := by
    rw [hgb, digitsValue_extend (n := d.digitCount) (by omega) fun i h1 h2 => by
      unfold Slot.addend; rw [if_neg (by omega)]]
    exact digitsValue_congr fun i hi => by unfold Slot.addend; rw [if_pos hi]
  have hvy : digitsValue g.base r.addend m = r.value := by
    rw [hgb, hb, digitsValue_extend (n := r.digitCount) (by omega) fun i h1 h2 => by
      unfold Slot.addend; rw [if_neg (by omega)]]
    exact digitsValue_congr fun i hi => by unfold Slot.addend; rw [if_pos hi]
  rw [hvx, hvy] at a5
  have hdoub : ∃ k, g.capacityBytes = ceilBytes d.bpd * 2^k := by
    obtain ⟨k0, hk0⟩ := hd.capacity_doubled
    exact ⟨k0 + kk, by rw [e4, hk0, pow_add, Nat.mul_assoc]⟩
  generalize hR : addLoop g.capacityBytes g.bpd g.base d.addend r.addend g.buf m = R at *
  by_cases hc : R.2 = 1
  · have hA : addInto g d.addend r.addend m =
        { g with buf := digitWrite R.1 g.capacityBytes g.bpd m 1, digitCount := m + 1 } := by
      unfold addInto; dsimp only; rw [hR, if_pos hc]
    rw [hA]
    have hone : 1 < 2^g.bpd := by rw [hgp]; exact Nat.one_lt_two_pow (by omega)
    have hdr : ∀ j, j < m + 1 → digitRead (digitWrite R.1 g.capacityBytes g.bpd m 1) g.capacityBytes g.bpd j =
        if j = m then 1 else digitRead R.1 g.capacityBytes g.bpd j := by
      intro j hj
      exact digitRead_digitWrite a1 hroom (by omega) hj hone
    refine ⟨?_, ?_, .inr ⟨rfl, ?_⟩, hgs, hgb, hgp, rfl⟩
    · constructor
      · exact hgb ▸ hd.base_range
      · show g.base - 1 < 2^g.bpd ∧ _; rw [hgb, hgp]; exact hd.bpd_least
      · exact hroom
      · intro i hi
        change digitRead (digitWrite R.1 g.capacityBytes g.bpd m 1) g.capacityBytes g.bpd i < g.base
        rw [hdr i hi]; split
        · omega
        · exact a4 i (by change i < m+1 at hi; omega)
      · show 1 ≤ m+1; omega
      · intro _
        change digitRead (digitWrite R.1 g.capacityBytes g.bpd m 1) g.capacityBytes g.bpd m ≠ 0
        rw [hdr m (by omega), if_pos rfl]; omega
      · intro k h1 h2
        change bitAt (digitWrite R.1 g.capacityBytes g.bpd m 1) g.capacityBytes k = false
        have h1' : g.bpd * (m+1) ≤ k := h1
        rw [bitAt_digitWrite_apart a1 hroom (by omega) h2 (.inr h1'),
          a6 k h2 (le_trans (Nat.mul_le_mul_left _ (by omega)) h1')]
        exact hclear k h2 (le_trans (Nat.mul_le_mul_left _ (by omega)) h1')
      · show ∃ k, g.capacityBytes = ceilBytes g.bpd * 2^k; rw [hgp]; exact hdoub
      · exact e2
      · exact wf_digitWrite a1 _ _ _ _
      · exact below_digitWrite a2 hroom (by omega) _
    · show digitsValue g.base (digitRead (digitWrite R.1 g.capacityBytes g.bpd m 1) g.capacityBytes g.bpd) (m+1) = _
      rw [digitsValue, hdr m (by omega), if_pos rfl, ← a5, hc]
      congr 1
      exact digitsValue_congr fun i hi => by rw [hdr i (by omega), if_neg (by omega)]
    · exact (hdr m (by omega)).trans (if_pos rfl)
  · have hc0 : R.2 = 0 := by omega
    have hA : addInto g d.addend r.addend m = { g with buf := R.1, digitCount := m } := by
      unfold addInto; dsimp only; rw [hR, if_neg hc]
    rw [hA]
    refine ⟨?_, ?_, .inl rfl, hgs, hgb, hgp, rfl⟩
    · constructor
      · exact hgb ▸ hd.base_range
      · show g.base - 1 < 2^g.bpd ∧ _; rw [hgb, hgp]; exact hd.bpd_least
      · exact le_trans (Nat.mul_le_mul_left g.bpd (by show m ≤ m+1; omega)) hroom
      · intro i hi; exact a4 i hi
      · exact hm1
      · intro h1
        have h1 : 1 < m := h1
        refine a7 hm1 ?_ hc0
        rcases (by omega : d.digitCount = m ∨ r.digitCount = m) with h | h
        · left; unfold Slot.addend; rw [if_pos (by omega)]; have := hd.top_nonzero (by omega); rwa [h] at this
        · right; unfold Slot.addend; rw [if_pos (by omega)]; have := hr.top_nonzero (by omega); rwa [h] at this
      · intro k h1 h2
        change bitAt R.1 g.capacityBytes k = false
        rw [a6 k h2 h1]; exact hclear k h2 h1
      · show ∃ k, g.capacityBytes = ceilBytes g.bpd * 2^k; rw [hgp]; exact hdoub
      · exact e2
      · exact a1
      · exact a2
    · show digitsValue g.base (digitRead R.1 g.capacityBytes g.bpd) m = _
      rw [← a5, hc0]; omega

end Sys2Proof.Laws
end

