-- ==== Sys2Proof/Laws/Step.lean ====
section
/-! SUPPORT. What one step can do: every move of every agent, said once. -/

namespace Sys2Proof.Laws

open Sys2Proof.Machine

/-- What a host access answers (20_memory.md R46, R47). -/
theorem windowAccess_cases (s : State) (addr bytes : Nat) (k : WindowReg → State) :
    ((addr < s.params.regBase ∨ s.params.regBase + 64 ≤ addr) ∧
        windowAccess s addr bytes k = .fault .outsideWindow) ∨
      ((s.params.regBase ≤ addr ∧ addr < s.params.regBase + 64) ∧ bytes ≠ 8 ∧
        windowAccess s addr bytes k = .refused .accessWidth) ∨
      ((s.params.regBase ≤ addr ∧ addr < s.params.regBase + 64) ∧ bytes = 8 ∧ (addr - s.params.regBase) % 8 ≠ 0 ∧
        windowAccess s addr bytes k = .refused .accessAlignment) ∨
      ((s.params.regBase ≤ addr ∧ addr < s.params.regBase + 64) ∧ bytes = 8 ∧ (addr - s.params.regBase) % 8 = 0 ∧
        windowAccess s addr bytes k = .next (k (windowReg (addr - s.params.regBase)))) := by
  unfold windowAccess windowBytes
  by_cases h1 : addr < s.params.regBase ∨ s.params.regBase + 64 ≤ addr
  · exact .inl ⟨h1, if_pos h1⟩
  · have h1' : s.params.regBase ≤ addr ∧ addr < s.params.regBase + 64 := by omega
    by_cases h2 : bytes = 8
    · by_cases h3 : (addr - s.params.regBase) % 8 = 0
      · exact .inr (.inr (.inr ⟨h1', h2, h3, by simp [h1, h2, h3]⟩))
      · exact .inr (.inr (.inl ⟨h1', h2, h3, by simp [h1, h2, h3]⟩))
    · exact .inr (.inl ⟨h1', h2, by simp [h1, h2]⟩)

/-- What the engine's turn can leave: nothing changed where no command is pending, the pending command completed, or the
fault of an illegal one (30_encoding.md R75, R76). -/
theorem engineTurn_cases {s t : State} (h : engineTurn s = .next t) :
    (s.status.busy = false ∧ t = s) ∨
      (s.status.busy = true ∧ ∃ i, decode s.latch.word = .ok i ∧ t = complete s (commandOf i s)) ∨
      (s.status.busy = true ∧ ∃ e, decode s.latch.word = .error e ∧ t = s.takeFault .illegalCommand) := by
  unfold engineTurn engineStep at h
  cases hb : s.status.busy with
  | false =>
    rw [hb] at h
    simp only [Bool.false_eq_true, if_false] at h
    exact .inl ⟨rfl, (Host.Outcome.next.inj h).symm⟩
  | true =>
    rw [hb] at h
    simp only [if_true] at h
    cases hd : decode s.latch.word with
    | ok i =>
      rw [hd] at h
      simp only [exec_eq] at h
      exact .inr (.inl ⟨rfl, i, rfl, (Host.Outcome.next.inj h).symm⟩)
    | error e =>
      rw [hd] at h
      exact .inr (.inr ⟨rfl, e, rfl, (Host.Outcome.next.inj h).symm⟩)

/-- What a host access can leave, where it answers a next state: its register's read or write. -/
theorem windowAccess_next {s t : State} {addr bytes : Nat} {k : WindowReg → State}
    (h : windowAccess s addr bytes k = .next t) : t = k (windowReg (addr - s.params.regBase)) := by
  rcases windowAccess_cases s addr bytes k with ⟨-, e⟩ | ⟨-, -, e⟩ | ⟨-, -, -, e⟩ | ⟨-, -, -, e⟩ <;> rw [e] at h
  · cases h
  · cases h
  · cases h
  · exact (Host.Outcome.next.inj h).symm

/-- The cases of one step: whose move it is, and what it leaves. -/
theorem step_cases {s t : State} (h : step s = .next t) :
    (s.schedule = [] ∧ engineTurn s = .next t) ∨
      ∃ rest, (s.schedule = .engine :: rest ∧ engineTurn { s with schedule := rest } = .next t) ∨
        (∃ addr bytes, s.schedule = .read addr bytes :: rest ∧
          t = hostReadReg { s with schedule := rest } (windowReg (addr - s.params.regBase))) ∨
        (∃ addr bytes v, s.schedule = .write addr bytes v :: rest ∧
          t = hostWriteReg { s with schedule := rest } v (windowReg (addr - s.params.regBase))) ∨
        (s.schedule = .reset :: rest ∧ t = State.hostReset { s with schedule := rest }) := by
  unfold step nextMove at h
  cases hs : s.schedule with
  | nil => rw [hs] at h; exact .inl ⟨rfl, h⟩
  | cons e rest =>
    rw [hs] at h
    refine .inr ⟨rest, ?_⟩
    cases e with
    | engine => exact .inl ⟨rfl, h⟩
    | read addr bytes => exact .inr (.inl ⟨addr, bytes, rfl, windowAccess_next h⟩)
    | write addr bytes v => exact .inr (.inr (.inl ⟨addr, bytes, v, rfl, windowAccess_next h⟩))
    | reset => exact .inr (.inr (.inr ⟨rfl, (Host.Outcome.next.inj h).symm⟩))
    | secondHost => cases h

end Sys2Proof.Laws
end

