-- ==== Sys2Proof/Tests/Slice0.lean ====
section
/-! SUPPORT. Tests: ill-formed commands are refused, hand-written words decode, and one step of each command gives what
spec/95_test_vectors.md says (each test names its vector). -/

namespace Sys2Proof.Tests

-- One theorem after another: the kernel evaluations of `decide +kernel` would otherwise each wait in a thread of its own.
set_option Elab.async false

open Sys2Proof Sys2Proof.Machine

/-! ## Helpers -/

/-- The state after one step; the same state where the step stops. -/
def after (s : State) : State :=
  match step s with
  | .next t => t
  | _ => s

/-- One command with its three operands, run from `s`. -/
def run (s : State) (word a0 a1 a2 : Nat) : State :=
  after (State.withFetchWord
    { s with arg0 := BitVec.ofNat 64 a0, arg1 := BitVec.ofNat 64 a1, arg2 := BitVec.ofNat 64 a2 } 64 word)

/-- The first `n` bytes of a buffer. -/
def bytes (m : Memory) (n : Nat) : List Nat := (List.range n).map fun i => (m.read i).toNat

/-- A slot as spec/95_test_vectors.md writes it: base, bpd, digitCount, capacityBytes, buf. -/
def shown (sl : Slot) : List Nat := [sl.base, sl.bpd, sl.digitCount, sl.capacityBytes] ++ bytes sl.buf sl.capacityBytes

/-- The scratch buffer of the vectors B1 to B44: FF 43 08, three bytes long. -/
def scratch : State := { State.reset with bf := [(0, 0xFF), (1, 0x43), (2, 0x08)], bfLen := 3 }

/-- Slot 0 holds `x` in base `b`. -/
def built (x b : Nat) : State := run State.reset 0x010 x b 0

/-- Slot 0 holds `x` in base `b`, slot 1 holds `y` in base `c`. -/
def builtTwo (x b y c : Nat) : State := run (built x b) 0x110 y c 0

/-! ## Ill-formed commands are refused: one for each check of WellFormed -/

theorem test_construct_256_ill_formed : (Instr.construct 256).wellFormed = false := by decide
theorem test_release_256_ill_formed : (Instr.release 256).wellFormed = false := by decide
theorem test_digitAt_256_ill_formed : (Instr.digitAt 256).wellFormed = false := by decide
theorem test_setDigitAt_256_ill_formed : (Instr.setDigitAt 256).wellFormed = false := by decide
theorem test_getBase_256_ill_formed : (Instr.getBase 256).wellFormed = false := by decide
theorem test_getBpd_256_ill_formed : (Instr.getBpd 256).wellFormed = false := by decide
theorem test_getDigitCount_256_ill_formed : (Instr.getDigitCount 256).wellFormed = false := by decide
theorem test_getCapacity_256_ill_formed : (Instr.getCapacity 256).wellFormed = false := by decide
theorem test_addAssign_dest_256_ill_formed : (Instr.addAssign 256 0).wellFormed = false := by decide
theorem test_addAssign_right_256_ill_formed : (Instr.addAssign 0 256).wellFormed = false := by decide
theorem test_slot_255_well_formed : (Instr.addAssign 255 255).wellFormed = true := by decide

/-! ## Words written out from 30_encoding.md R72, R73, R78: OP in bits 7:0, A in bits 15:8, B in bits 23:16 -/

theorem test_decode_bfSetLen : decodeTableWord 64 0x0000000000000001 = some .bfSetLen := by decide
theorem test_decode_bfGetLen : decodeTableWord 64 0x0000000000000002 = some .bfGetLen := by decide
theorem test_decode_bfWriteByte : decodeTableWord 64 0x0000000000000003 = some .bfWriteByte := by decide
theorem test_decode_bfReadByte : decodeTableWord 64 0x0000000000000004 = some .bfReadByte := by decide
theorem test_decode_bfGetBits : decodeTableWord 64 0x0000000000000005 = some .bfGetBits := by decide
theorem test_decode_bfSetBits : decodeTableWord 64 0x0000000000000006 = some .bfSetBits := by decide
theorem test_decode_bfGetSpan : decodeTableWord 64 0x0000000000000007 = some .bfGetSpan := by decide
theorem test_decode_bfSetSpan : decodeTableWord 64 0x0000000000000008 = some .bfSetSpan := by decide
theorem test_decode_construct : decodeTableWord 64 0x0000000000000310 = some (.construct 3) := by decide
theorem test_decode_release : decodeTableWord 64 0x0000000000000211 = some (.release 2) := by decide
theorem test_decode_digitAt : decodeTableWord 64 0x0000000000000312 = some (.digitAt 3) := by decide
theorem test_decode_setDigitAt : decodeTableWord 64 0x0000000000000113 = some (.setDigitAt 1) := by decide
theorem test_decode_getBase : decodeTableWord 64 0x000000000000FF14 = some (.getBase 255) := by decide
theorem test_decode_getBpd : decodeTableWord 64 0x0000000000008015 = some (.getBpd 128) := by decide
theorem test_decode_getDigitCount : decodeTableWord 64 0x0000000000000016 = some (.getDigitCount 0) := by decide
theorem test_decode_getCapacity : decodeTableWord 64 0x000000000000FF17 = some (.getCapacity 255) := by decide
theorem test_decode_addAssign : decodeTableWord 64 0x0000000000010220 = some (.addAssign 2 1) := by decide

/-- Vectors E8, E9, E10, E11, E12, E13 and E7: illegal values. -/
theorem test_illegal_words_refused :
    [0x100000110, 0x10010, 0x1000005, 0x21, 0x105, 0xFF, 0x0].map (decodeTableWord 64) =
      [none, none, none, none, none, none, none] := by decide

/-! ## One step of each command -/

/-- Vectors B35 and B36. -/
theorem test_bfSetLen_16 : (run State.reset 0x01 16 0 0).bfLen = 16 := by decide +kernel
theorem test_bfSetLen_17_faults : (run State.reset 0x01 17 0 0).status.word = 0x602 := by decide +kernel

theorem test_bfGetLen : (run scratch 0x02 0 0 0).result = 3 := by decide +kernel

/-- 40_bitfield.md R100, and vector B39: the index is checked before the value. -/
theorem test_bfWriteByte : bytes (run scratch 0x03 1 0xAB 0).bf 3 = [0xFF, 0xAB, 0x08] := by decide +kernel
theorem test_bfWriteByte_index_first : (run scratch 0x03 16 300 0).status.word = 0x602 := by decide +kernel

/-- 40_bitfield.md R101, and vector B41. -/
theorem test_bfReadByte : (run scratch 0x04 1 0 0).result = 0x43 := by decide +kernel
theorem test_bfReadByte_16_faults : (run scratch 0x04 16 0 0).status.word = 0x602 := by decide +kernel

/-- Vectors W1 and B10. -/
theorem test_bfGetBits_w1 : (run scratch 0x05 3 20 0).result = 0x1E861 := by decide +kernel
theorem test_bfGetBits_past_end_faults : (run scratch 0x05 0 25 0).status.word = 0x402 := by decide +kernel

/-- Vectors B19 and B15. -/
theorem test_bfSetBits_width_64 : bytes (run { State.reset with bfLen := 9 } 0x06 4 68 0x0123456789ABCDEF).bf 9 =
    [0x00, 0x12, 0x34, 0x56, 0x78, 0x9A, 0xBC, 0xDE, 0xF0] := by decide +kernel
theorem test_bfSetBits_too_wide_faults : (run scratch 0x06 0 3 8).status.word = 0x502 := by decide +kernel

/-- Vectors B23 (element 5) and B30. -/
theorem test_bfGetSpan : (run scratch 0x07 3 5 0).result = 6 := by decide +kernel
theorem test_bfGetSpan_exact_product : (run scratch 0x07 (2 ^ 63) 2 0).status.word = 0x402 := by decide +kernel

/-- Vectors B32 and B34. -/
theorem test_bfSetSpan : bytes (run { State.reset with bfLen := 2 } 0x08 3 2 5).bf 2 = [0x01, 0x40] := by decide +kernel
theorem test_bfSetSpan_width_64 : bytes (run { State.reset with bfLen := 16 } 0x08 64 1 0xDEADBEEFCAFEF00D).bf 16 =
    [0xDE, 0xAD, 0xBE, 0xEF, 0xCA, 0xFE, 0xF0, 0x0D, 0, 0, 0, 0, 0, 0, 0, 0] := by decide +kernel

/-- Vectors S7 and S18. -/
theorem test_construct_266_7 : shown ((built 266 7).slotAt 0) = [7, 3, 3, 2, 0x01, 0x58] := by decide +kernel
theorem test_construct_doubles_5_to_10 : shown ((built (2 ^ 64 - 1) (2 ^ 32 + 1)).slotAt 0) =
    [2 ^ 32 + 1, 33, 2, 10, 0x00, 0x01, 0xFF, 0xFF, 0xFF, 0xFE, 0, 0, 0, 0] := by decide +kernel

/-- Vectors S31 and S32. -/
theorem test_release : ((run (built 10 10) 0x11 0 0 0).slotAt 0).state = .free := by decide +kernel
theorem test_release_free_faults : (run State.reset 0x11 0 0 0).status.word = 0x302 := by decide +kernel

/-- Vector S21. -/
theorem test_digitAt_1 : (run (built 10 10) 0x12 1 0 0).result = 1 := by decide +kernel
theorem test_digitAt_2_faults : (run (built 10 10) 0x12 2 0 0).status.word = 0x602 := by decide +kernel

/-- Vectors S27 and S29. -/
theorem test_setDigitAt_renormalises :
    shown ((run (built 100 10) 0x13 2 0 0).slotAt 0) = [10, 4, 1, 2, 0x00, 0x00] := by decide +kernel
theorem test_setDigitAt_10_faults : (run (built 10 10) 0x13 0 10 0).status.word = 0x502 := by decide +kernel

/-- Vector S30. -/
theorem test_getBase : (run (built 266 7) 0x14 0 0 0).result = 7 := by decide +kernel
theorem test_getBpd : (run (built 266 7) 0x15 0 0 0).result = 3 := by decide +kernel
theorem test_getDigitCount : (run (built 266 7) 0x16 0 0 0).result = 3 := by decide +kernel
theorem test_getCapacity : (run (built 266 7) 0x17 0 0 0).result = 2 := by decide +kernel

/-- W2: the capacity grows at the front, and 10 + 10 = 20. -/
theorem test_addAssign_w2 :
    shown ((run (builtTwo 10 10 10 10) 0x10020 0 0 0).slotAt 0) = [10, 4, 2, 2, 0x00, 0x20] := by decide +kernel

/-- W3: a carry through every digit. -/
theorem test_addAssign_w3 :
    shown ((run (builtTwo 999 10 1 10) 0x10020 0 0 0).slotAt 0) = [10, 4, 4, 2, 0x10, 0x00] := by decide +kernel

/-- W4: two bases. -/
theorem test_addAssign_w4 : (run (builtTwo 10 10 5 2) 0x10020 0 0 0).status.word = 0x20 := by decide +kernel

/-- Vector E15: the second slot index is checked before the slots' states. -/
theorem test_addAssign_bad_right : (run State.reset 0x70020 0 0 0).status.word = 0x202 := by decide +kernel

end Sys2Proof.Tests
end

