-- ==== Sys2Proof/Tests/Witness.lean ====
section
/-! SUPPORT. For every statement with hypotheses, concrete states and operands that meet them, one for each clause at a
boundary of its range. A witness is named after its statement. -/

namespace Sys2Proof.Tests

-- One theorem after another: the kernel evaluations of `decide +kernel` would otherwise each wait in a thread of its own.
set_option Elab.async false

open Sys2Proof Sys2Proof.Machine Sys2Proof.Laws Sys2Proof.Claims

/-! ## The states -/

/-- A busy block with the given latch and moves: slots 999 and 1 in base 10, 5 in base 2, one FREE; BF = FF 43 08. -/
def demo (word a0 a1 a2 : Nat) (moves : List Event) : State :=
  { State.reset with
    cmd := BitVec.ofNat 64 word
    latch := { word := BitVec.ofNat 64 word, a0 := BitVec.ofNat 64 a0, a1 := BitVec.ofNat 64 a1,
               a2 := BitVec.ofNat 64 a2 }
    status := { Status.zero with busy := true }
    bf := [(0, 0xFF), (1, 0x43), (2, 0x08)]
    bfLen := 3
    slots := [builtSlot 999 10, builtSlot 1 10, builtSlot 5 2, Slot.free]
    schedule := moves }

/-- The same block, idle. -/
def idle (moves : List Event) : State := { demo 0x02 0 0 0 moves with status := Status.zero }

/-- The same block, faulted. -/
def faulted (moves : List Event) : State :=
  { demo 0x02 0 0 0 moves with status := { Status.zero with fault := true, cause := .index } }

/-- A block with a longer bit view: nine bytes. -/
def demo9 (a0 a1 a2 : Nat) : State := { demo 0x05 a0 a1 a2 [] with bfLen := 9 }

/-- A block whose slots hold two digits of 63 bits in 16 bytes, with `maxBytes` as the limit of a slot. -/
def wide (maxBytes : Nat) : State :=
  { State.resetWith { Params.reference with numSlots := 2, maxCapacityBytes := maxBytes } with
    status := { Status.zero with busy := true }
    slots := [builtSlot (2 ^ 64 - 1) (2 ^ 63 - 1), builtSlot (2 ^ 64 - 1) (2 ^ 63 - 1)] }

theorem builtSlot_inv {x b M : Nat} (hx : x < 2 ^ 64) (h1 : 2 ≤ b) (h2 : b ≤ 2 ^ 63 - 1)
    (hM : (builtSlot x b).capacityBytes ≤ M) : (builtSlot x b).Inv M :=
  ⟨fun h => SlotState.noConfusion h, fun _ => (builtSlot_spec hx h1 h2 hM).1⟩

theorem free_inv (M : Nat) : Slot.free.Inv M := ⟨fun _ => rfl, fun h => SlotState.noConfusion h⟩

theorem busy_status_inv : ({ Status.zero with busy := true } : Status).Inv := ⟨by decide, by decide, by decide⟩

/-- `demo` meets the invariant. -/
theorem demo_inv (word a0 a1 a2 : Nat) (moves : List Event) : (demo word a0 a1 a2 moves).Inv where
  params_valid := (by decide +kernel : Params.reference.Valid)
  slot_count := rfl
  slots_inv := by
    have h1 : (builtSlot 999 10).Inv 64 := builtSlot_inv (by decide) (by decide) (by decide) (by decide +kernel)
    have h2 : (builtSlot 1 10).Inv 64 := builtSlot_inv (by decide) (by decide) (by decide) (by decide +kernel)
    have h3 : (builtSlot 5 2).Inv 64 := builtSlot_inv (by decide) (by decide) (by decide) (by decide +kernel)
    intro sl h
    rcases List.mem_cons.1 h with rfl | h
    · exact h1
    rcases List.mem_cons.1 h with rfl | h
    · exact h2
    rcases List.mem_cons.1 h with rfl | h
    · exact h3
    rcases List.mem_cons.1 h with rfl | h
    · exact free_inv _
    · cases h
  bf_canonical := (by decide +kernel : Memory.wf [(0, 0xFF), (1, 0x43), (2, 0x08)])
  bf_inside := (by decide +kernel : Memory.Below [(0, 0xFF), (1, 0x43), (2, 0x08)] 16)
  bfLen_le := (by decide : 3 ≤ 16)
  status_inv := busy_status_inv
  cmd_latched := fun _ => rfl

/-- `wide` meets the invariant. -/
theorem wide_inv {maxBytes : Nat} (h : 16 ≤ maxBytes) : (wide maxBytes).Inv where
  params_valid := ⟨by change 2 ≤ 2 ∧ 2 ≤ 256; decide, by change 9 ≤ 16 ∧ 16 ≤ 2 ^ 16; decide, h, rfl⟩
  slot_count := rfl
  slots_inv := by
    have hc : (builtSlot (2 ^ 64 - 1) (2 ^ 63 - 1)).capacityBytes ≤ 16 := by decide +kernel
    have hi := builtSlot_inv (M := maxBytes) (x := 2 ^ 64 - 1) (b := 2 ^ 63 - 1) (by decide) (by decide) (by decide)
      (le_trans hc h)
    intro sl hs
    rcases List.mem_cons.1 hs with rfl | hs
    · exact hi
    rcases List.mem_cons.1 hs with rfl | hs
    · exact hi
    · cases hs
  bf_canonical := ⟨List.Pairwise.nil, fun c hc => by cases hc⟩
  bf_inside := fun c hc => by cases hc
  bfLen_le := Nat.zero_le _
  status_inv := busy_status_inv
  cmd_latched := fun _ => rfl

/-! ## Encoding and decode -/

theorem witness_DecodeOfEncodeIsTheCommand :
    (Instr.addAssign 255 255).WellFormed ∧ (Instr.construct 255).WellFormed ∧ Instr.bfSetLen.WellFormed := by decide

theorem witness_DecodedWordIsTheCommandsWord : decode 0x00FFFF20 = .ok (.addAssign 255 255) := by rfl

theorem witness_ExactlyLegalCommandsDecode :
    ∀ w, w ∈ [0x21, 0x100000001, 0x01000010, 0x10010, 0x105] →
      (demo w 0 0 0 [.engine]).status.busy = true ∧ (demo w 0 0 0 [.engine]).schedule = [.engine] ∧
        ¬LegalCommand (demo w 0 0 0 [.engine]).latch.word := by
  unfold LegalCommand
  decide +kernel

theorem witness_DecodeFollowsTheOpcodeTable : decode 0xFF17 = .ok (.getCapacity 255) := by rfl

theorem witness_OtherOpcodesAreIllegal :
    ∀ w, w ∈ [0x00, 0x09, 0x0F, 0x18, 0x1F, 0x21, 0xFF] →
      (demo w 0 0 0 [.engine]).status.busy = true ∧ (demo w 0 0 0 [.engine]).schedule = [.engine] ∧
        fieldOp (demo w 0 0 0 [.engine]).latch.word = w := by decide +kernel

/-! ## The engine, the host and the register window -/

theorem witness_StepRunsTheDecodedCommand :
    (demo 0x10020 0 0 0 [.engine]).status.busy = true ∧ decode (demo 0x10020 0 0 0 []).latch.word = .ok (.addAssign 0 1) ∧
      (demo 0x10020 0 0 0 [.engine]).schedule = [.engine] ∧ (demo 0x10020 0 0 0 []).schedule = [] :=
  ⟨rfl, rfl, rfl, rfl⟩

theorem witness_EngineTurnClearsBusy :
    (demo 0x21 0 0 0 []).status.busy = true ∧ (demo 0x21 0 0 0 []).schedule = [] ∧
      (demo 0x10 5 7 0 [.engine]).schedule = [.engine] := ⟨rfl, rfl, rfl⟩

theorem witness_CmdWriteIsDroppedFaultsOrIssues :
    (faulted [.write 0 8 1]).schedule = [.write (faulted []).params.regBase 8 1] ∧
      (faulted [.write 0 8 1]).status.fault = true ∧
      (demo 2 0 0 0 [.write 0 8 1]).status.fault = false ∧ (demo 2 0 0 0 [.write 0 8 1]).status.busy = true ∧
      (idle [.write 0 8 1]).status.fault = false ∧ (idle [.write 0 8 1]).status.busy = false :=
  ⟨rfl, rfl, rfl, rfl, rfl, rfl⟩

theorem witness_CmdWhileBusyDrawsResultAndErr :
    (demo 2 0 0 0 [.write 0 8 1]).schedule = [.write (demo 2 0 0 0 []).params.regBase 8 1] ∧
      (demo 2 0 0 0 [.write 0 8 1]).status.fault = false ∧ (demo 2 0 0 0 [.write 0 8 1]).status.busy = true :=
  ⟨rfl, rfl, rfl⟩

theorem witness_OperandWritesAlwaysStore :
    (faulted [.write 0x08 8 7]).schedule = [.write ((faulted []).params.regBase + 0x08) 8 7] ∧
      (demo 2 0 0 0 [.write 0x10 8 7]).schedule = [.write ((demo 2 0 0 0 []).params.regBase + 0x10) 8 7] ∧
      (idle [.write 0x18 8 7]).schedule = [.write ((idle []).params.regBase + 0x18) 8 7] := ⟨rfl, rfl, rfl⟩

theorem witness_IdleReadsGiveTheRegisters :
    (idle []).status.busy = false ∧
      ∀ off, off ∈ [0x00, 0x08, 0x10, 0x18, 0x20, 0x28] →
        (idle [.read off 8]).schedule = [.read ((idle []).params.regBase + off) 8] := by decide +kernel

theorem witness_BusyReadsDrawResultAndErr :
    (demo 2 0 0 0 []).status.busy = true ∧
      ∀ off, off ∈ [0x00, 0x08, 0x10, 0x18, 0x20, 0x28] →
        (demo 2 0 0 0 [.read off 8]).schedule = [.read ((demo 2 0 0 0 []).params.regBase + off) 8] := by decide +kernel

theorem witness_ReservedBitsAndOffsetsReadZero :
    (16 : Nat) ≤ 63 ∧ (idle [.read 0x30 8]).schedule = [.read ((idle []).params.regBase + 0x30) 8] ∧
      (idle [.write 0x38 8 5]).schedule = [.write ((idle []).params.regBase + 0x38) 8 5] := ⟨by decide, rfl, rfl⟩

theorem witness_ReadsHaveNoSideEffect :
    (idle [.write 0x20 8 5]).schedule = [.write ((idle []).params.regBase + 0x20) 8 5] ∧
      (idle [.write 0x28 8 5]).schedule = [.write ((idle []).params.regBase + 0x28) 8 5] ∧
      (demo 2 0 0 0 [.read 0x38 8]).schedule = [.read ((demo 2 0 0 0 []).params.regBase + 0x38) 8] ∧
      (0x38 : Nat) < 64 ∧ 0x38 % 8 = 0 := ⟨rfl, rfl, rfl, by decide, by decide⟩

/-- Misaligned; of the wrong width; both; and neither, at the last register. -/
theorem witness_OnlyAlignedWordAccessesHaveMeaning :
    (idle [.read 0x3F 8]).schedule = [.read ((idle []).params.regBase + 0x3F) 8] ∧ (0x3F : Nat) < 64 ∧ 0x3F % 8 ≠ 0 ∧
      (idle [.write 0x00 4 5]).schedule = [.write ((idle []).params.regBase + 0x00) 4 5] ∧
      (idle [.read 0x3F 4]).schedule = [.read ((idle []).params.regBase + 0x3F) 4] ∧ (4 : Nat) ≠ 8 ∧
      (idle [.read 0x38 8]).schedule = [.read ((idle []).params.regBase + 0x38) 8] :=
  ⟨rfl, by decide, by decide, rfl, rfl, by decide, rfl⟩

theorem witness_ForeignAccessesStop :
    (idle []).params.regBase + 64 ≤ 64 ∧ (idle [.read 64 8]).schedule = [.read 64 8] ∧
      (63 : Nat) < ({ Params.reference with regBase := 64 } : Params).regBase ∧
      (idle [.secondHost]).schedule = [.secondHost] := ⟨by decide +kernel, rfl, by decide, rfl⟩

theorem witness_IssuedCommandRunsOnTheLatchedOperands :
    (idle [.write 0 8 0x10, .engine]).Ready ∧ decode 0x10 = .ok (.construct 0) ∧
      (idle [.write 0 8 0x10, .engine]).schedule = .write (idle []).params.regBase 8 0x10 :: .engine :: [] :=
  ⟨⟨rfl, rfl⟩, rfl, rfl⟩

theorem witness_CmdWriteRacesWithCompletion :
    (demo 2 0 0 0 [.engine, .write 0 8 1]).Unfaulted ∧ (demo 2 0 0 0 [.engine, .write 0 8 1]).status.busy = true ∧
      (demo 2 0 0 0 [.write 0 8 1, .engine]).schedule = [.write (demo 2 0 0 0 []).params.regBase 8 1, .engine] ∧
      ∃ t, step (demo 2 0 0 0 [.engine, .write 0 8 1]) = .next t ∧ t.Unfaulted :=
  ⟨rfl, rfl, rfl, _, rfl, rfl⟩

/-! ## Reset and the invariant -/

theorem witness_ResetRestoresEveryRegister :
    (faulted [.reset]).schedule = [.reset] ∧ (demo 2 0 0 0 [.reset, .engine]).schedule = [.reset, .engine] := ⟨rfl, rfl⟩

theorem witness_ResetStateMeetsTheInvariant :
    Params.reference.Valid ∧
      ({ numSlots := 256, bfBufBytes := 9, maxCapacityBytes := 16, regBase := 64 } : Params).Valid := by decide +kernel

theorem witness_EveryStepKeepsTheInvariant :
    (demo 0x10020 0 0 0 [.engine]).Inv ∧ ∃ t, step (demo 0x10020 0 0 0 [.engine]) = .next t :=
  ⟨demo_inv _ _ _ _ _, _, rfl⟩

/-! ## Whole-machine rules -/

theorem witness_ErrorsRepeat :
    (demo 0x310 5 1 0 []).Unfaulted ∧
      ∃ t, exec (.construct 3) (demo 0x310 5 1 0 []) = .next t ∧ t.Unfaulted ∧ t.status.err ≠ 0 :=
  ⟨rfl, _, rfl, by decide +kernel, by decide +kernel⟩

theorem witness_OutcomeDependsOnLatchAndUnitsAlone :
    ∃ u : State, u.params = (demo 5 3 20 0 []).params ∧ u.latch = (demo 5 3 20 0 []).latch ∧
      u.bf = (demo 5 3 20 0 []).bf ∧ u.bfLen = (demo 5 3 20 0 []).bfLen ∧ u.slots = (demo 5 3 20 0 []).slots ∧
      u.result ≠ (demo 5 3 20 0 []).result ∧ u.draws ≠ (demo 5 3 20 0 []).draws :=
  ⟨{ demo 5 3 20 0 [] with result := 9, draws := 4 }, rfl, rfl, rfl, rfl, rfl, by decide +kernel, by decide +kernel⟩

theorem witness_LiveSlotsKeepBaseAndNeverShrink :
    (demo 0x13 3 9 0 []).Inv ∧ ((demo 0x13 3 9 0 []).slotAt 0).state = .live ∧
      ∃ t, exec (.setDigitAt 0) (demo 0x13 3 9 0 []) = .next t ∧ (t.slotAt 0).state = .live :=
  ⟨demo_inv _ _ _ _ _, rfl, _, rfl, by decide +kernel⟩

theorem witness_FaultedBlockIsStuckUntilReset :
    (faulted [.write 0x08 8 7]).status.fault = true ∧ (faulted [.write 0x08 8 7]).status.busy = false ∧
      (faulted [.write 0x08 8 7]).schedule.head? ≠ some .reset ∧ ∃ t, step (faulted [.write 0x08 8 7]) = .next t :=
  ⟨rfl, rfl, by decide, _, rfl⟩

theorem witness_StepsKeepParametersAndReads : ∃ t, step (idle [.read 0x20 8]) = .next t := ⟨_, rfl⟩

theorem witness_SlotChecksComeFirst :
    (∃ a, a ∈ slotOperands (.addAssign 3 4) ∧ (demo 0 0 0 0 []).params.numSlots ≤ a) ∧
      slotOperands (.addAssign 3 0) = 3 :: [0] ∧ (∀ x, x ∈ slotOperands (.addAssign 3 0) → x < 4) ∧
      ((demo 0 0 0 0 []).slotAt 3).state ≠ slotStateNeeded (.addAssign 3 0) ∧
      ((demo 0 0 0 0 []).slotAt 0).state ≠ slotStateNeeded (.construct 0) :=
  ⟨⟨4, by decide, by decide⟩, rfl, by decide, by decide +kernel, by decide +kernel⟩

/-! ## The bitfield_accessor -/

theorem witness_BfSetLenSetsTheLength :
    (demo 1 16 0 0 []).latch.a0.toNat ≤ (demo 1 16 0 0 []).params.bfBufBytes ∧
      (demo 1 17 0 0 []).params.bfBufBytes < (demo 1 17 0 0 []).latch.a0.toNat := by decide +kernel

theorem witness_BfWriteByteStoresOneByte :
    (demo 3 15 255 0 []).bf.wf ∧ (demo 3 15 255 0 []).latch.a0.toNat < (demo 3 15 255 0 []).params.bfBufBytes ∧
      (demo 3 15 255 0 []).latch.a1.toNat ≤ 255 ∧
      (demo 3 16 300 0 []).params.bfBufBytes ≤ (demo 3 16 300 0 []).latch.a0.toNat ∧
      255 < (demo 3 15 256 0 []).latch.a1.toNat := by decide +kernel

theorem witness_BfReadByteReturnsTheByte :
    (demo 4 15 0 0 []).latch.a0.toNat < (demo 4 15 0 0 []).params.bfBufBytes ∧
      (demo 4 16 0 0 []).params.bfBufBytes ≤ (demo 4 16 0 0 []).latch.a0.toNat := by decide +kernel

/-- Valid: all 24 bits, and 64 bits; invalid: one bit past the end, width 0, width 65. -/
theorem witness_BfGetBitsReturnsTheRange :
    RangeValid 3 (demo 5 0 24 0 []).latch.a0.toNat (demo 5 0 24 0 []).latch.a1.toNat ∧
      RangeValid 9 (demo9 4 68 0).latch.a0.toNat (demo9 4 68 0).latch.a1.toNat ∧
      ¬RangeValid 3 (demo 5 0 25 0 []).latch.a0.toNat (demo 5 0 25 0 []).latch.a1.toNat ∧
      ¬RangeValid 3 (demo 5 5 5 0 []).latch.a0.toNat (demo 5 5 5 0 []).latch.a1.toNat ∧
      ¬RangeValid 9 (demo9 0 65 0).latch.a0.toNat (demo9 0 65 0).latch.a1.toNat := by decide +kernel

theorem witness_BfSetBitsWritesTheRange :
    (demo9 4 68 (2 ^ 64 - 1)).bf.wf ∧
      RangeValid 9 (demo9 4 68 (2 ^ 64 - 1)).latch.a0.toNat (demo9 4 68 (2 ^ 64 - 1)).latch.a1.toNat ∧
      (demo9 4 68 (2 ^ 64 - 1)).latch.a2.toNat < 2 ^ 64 ∧
      ¬RangeValid 3 (demo 6 20 25 0 []).latch.a0.toNat (demo 6 20 25 0 []).latch.a1.toNat ∧
      RangeValid 3 (demo 6 0 3 8 []).latch.a0.toNat (demo 6 0 3 8 []).latch.a1.toNat ∧
      2 ^ 3 ≤ (demo 6 0 3 8 []).latch.a2.toNat := by decide +kernel

theorem witness_BfGetSpanReturnsTheElement :
    1 ≤ (demo 7 1 23 0 []).latch.a0.toNat ∧ 1 * (23 + 1) ≤ 8 * (demo 7 1 23 0 []).bfLen ∧
      (demo9 64 0 0).latch.a0.toNat ≤ 64 ∧ 64 * (0 + 1) ≤ 8 * (demo9 64 0 0).bfLen ∧
      ¬1 ≤ (demo 7 0 0 0 []).latch.a0.toNat ∧ ¬(demo 7 65 0 0 []).latch.a0.toNat ≤ 64 ∧
      ¬3 * (8 + 1) ≤ 8 * (demo 7 3 8 0 []).bfLen := by decide +kernel

theorem witness_BfSetSpanWritesTheElement :
    (demo9 64 0 (2 ^ 64 - 1)).bf.wf ∧ (demo9 64 0 (2 ^ 64 - 1)).latch.a0.toNat = 64 ∧
      64 * (0 + 1) ≤ 8 * (demo9 64 0 0).bfLen ∧ (demo9 64 0 (2 ^ 64 - 1)).latch.a2.toNat < 2 ^ 64 ∧
      ¬1 ≤ (demo 8 0 0 0 []).latch.a0.toNat ∧ 3 * (7 + 1) ≤ 8 * (demo 8 3 7 8 []).bfLen ∧
      2 ^ 3 ≤ (demo 8 3 7 8 []).latch.a2.toNat := by decide +kernel

theorem witness_GetBitsSlicesTheBigEndianNumber : (71 : Nat) < 8 * 9 ∧ RangeValid 9 8 72 ∧ RangeValid 3 3 20 := by decide

theorem witness_SetBitsRoundTripsAndIsLocal :
    (demo9 0 0 0).bf.wf ∧ RangeValid 9 4 68 ∧ 2 ^ 64 - 1 < 2 ^ (68 - 4) ∧ (71 : Nat) < 8 * 9 ∧ ¬(4 ≤ 71 ∧ 71 < 68) := by
  decide +kernel

theorem witness_ChunkedGetBitsAgrees : RangeValid 9 4 68 ∧ RangeValid 3 3 20 := by decide

theorem witness_ChunkedSetBitsAgrees :
    (demo9 0 0 0).bf.wf ∧ RangeValid 9 4 68 ∧ 2 ^ 64 - 1 < 2 ^ (68 - 4) := by decide +kernel

theorem witness_WrittenBytesShowInTheBitView :
    (demo9 0 0 0).bf.wf ∧ (0 : Nat) < 3 ∧ (2 : Nat) < 3 ∧ (3 : Nat) ≤ 3 := by decide +kernel

/-! ## The packed-digit store -/

theorem witness_ConstructBuildsTheNumber :
    (demo 0x310 7 2 0 []).Inv ∧ 3 < (demo 0x310 7 2 0 []).params.numSlots ∧
      ((demo 0x310 7 2 0 []).slotAt 3).state = .free ∧ 2 ≤ (demo 0x310 7 2 0 []).latch.a1.toNat ∧
      (demo 0x310 7 (2 ^ 63 - 1) 0 []).latch.a1.toNat ≤ 2 ^ 63 - 1 ∧
      ((demo 0x010 7 2 0 []).slotAt 0).state = .live ∧ (demo 0x310 7 1 0 []).latch.a1.toNat < 2 ∧
      2 ^ 63 - 1 < (demo 0x310 7 (2 ^ 63) 0 []).latch.a1.toNat :=
  ⟨demo_inv _ _ _ _ _, by decide +kernel⟩

theorem witness_ConstructNeedsAtMostSixteenBytes :
    2 ^ 64 - 1 < 2 ^ 64 ∧ (2 : Nat) ≤ 3 ∧ 3 ≤ 2 ^ 63 - 1 ∧ (demo 0x310 7 2 0 []).params.Valid ∧
      (demo 0x310 7 2 0 []).status.err ≠ 3 := by decide +kernel

theorem witness_ReleaseFreesTheSlot :
    (demo 0x11 0 0 0 []).slots.length = (demo 0x11 0 0 0 []).params.numSlots ∧
      3 < (demo 0x11 0 0 0 []).params.numSlots ∧ ((demo 0x11 0 0 0 []).slotAt 0).state = .live ∧
      ((demo 0x11 0 0 0 []).slotAt 3).state = .free := by decide +kernel

theorem witness_DigitAtReturnsTheDigit :
    (demo 0x12 2 0 0 []).Inv ∧ 0 < (demo 0x12 2 0 0 []).params.numSlots ∧
      ((demo 0x12 2 0 0 []).slotAt 0).state = .live ∧
      (demo 0x12 2 0 0 []).latch.a0.toNat < ((demo 0x12 2 0 0 []).slotAt 0).digitCount ∧
      ((demo 0x12 3 0 0 []).slotAt 0).digitCount ≤ (demo 0x12 3 0 0 []).latch.a0.toNat ∧
      ((demo 0x12 2 0 0 []).slotAt 3).state = .free :=
  ⟨demo_inv _ _ _ _ _, by decide +kernel⟩

theorem witness_SetDigitAtWritesTheDigit :
    (demo 0x13 3 9 0 []).Inv ∧ 0 < (demo 0x13 3 9 0 []).params.numSlots ∧
      ((demo 0x13 3 9 0 []).slotAt 0).state = .live ∧
      (demo 0x13 3 9 0 []).latch.a0.toNat < ((demo 0x13 3 9 0 []).slotAt 0).capDigits ∧
      (demo 0x13 3 9 0 []).latch.a1.toNat < ((demo 0x13 3 9 0 []).slotAt 0).base ∧
      ((demo 0x13 4 9 0 []).slotAt 0).capDigits ≤ (demo 0x13 4 9 0 []).latch.a0.toNat ∧
      ((demo 0x13 3 10 0 []).slotAt 0).base ≤ (demo 0x13 3 10 0 []).latch.a1.toNat ∧
      ((demo 0x13 3 9 0 []).slotAt 3).state = .free :=
  ⟨demo_inv _ _ _ _ _, by decide +kernel⟩

theorem witness_QueriesReturnTheFields :
    3 < (demo 0x14 0 0 0 []).params.numSlots ∧ ((demo 0x14 0 0 0 []).slotAt 0).state = .live ∧
      ((demo 0x14 0 0 0 []).slotAt 3).state = .free := by decide +kernel

/-- A top digit set to 9, and a top digit set to 0, which lowers the count. -/
theorem witness_SetDigitThenDigitAtRoundTrips :
    (demo 0x13 2 9 0 []).Inv ∧ (demo 0x13 2 0 0 []).Inv ∧ 0 < (demo 0x13 2 9 0 []).params.numSlots ∧
      ((demo 0x13 2 9 0 []).slotAt 0).state = .live ∧
      (demo 0x13 2 9 0 []).latch.a0.toNat < ((demo 0x13 2 9 0 []).slotAt 0).digitCount ∧
      (demo 0x13 2 9 0 []).latch.a1.toNat < ((demo 0x13 2 9 0 []).slotAt 0).base ∧
      ∃ t, exec (.setDigitAt 0) (demo 0x13 2 0 0 []) = .next t ∧ (t.slotAt 0).digitCount ≤ 2 :=
  ⟨demo_inv _ _ _ _ _, demo_inv _ _ _ _ _, by decide +kernel, by decide +kernel, by decide +kernel, by decide +kernel, _,
    rfl, by decide +kernel⟩

/-! ## The carry propagator -/

theorem witness_CarryStepIsExact :
    2 ≤ 2 ^ 63 - 1 ∧ 2 ^ 63 - 1 ≤ 2 ^ 63 - 1 ∧ 2 ^ 63 - 2 < 2 ^ 63 - 1 ∧ (1 : Nat) ≤ 1 := by decide

/-- Both operands one slot; and a growth that reaches the limit exactly. -/
theorem witness_AddAssignAddsExactly :
    ((demo 0x20 0 0 0 []).Inv ∧ 0 < (demo 0x20 0 0 0 []).params.numSlots ∧
      ((demo 0x20 0 0 0 []).slotAt 0).state = .live ∧
      ∃ k, ((demo 0x20 0 0 0 []).slotAt 0).bpd * (3 + 1) ≤ 8 * (((demo 0x20 0 0 0 []).slotAt 0).capacityBytes * 2 ^ k) ∧
        ((demo 0x20 0 0 0 []).slotAt 0).capacityBytes * 2 ^ k ≤ (demo 0x20 0 0 0 []).params.maxCapacityBytes) ∧
    ((wide 32).Inv ∧ 1 < (wide 32).params.numSlots ∧ ((wide 32).slotAt 0).state = .live ∧
      ((wide 32).slotAt 1).state = .live ∧ ((wide 32).slotAt 0).base = ((wide 32).slotAt 1).base ∧
      2 = max ((wide 32).slotAt 0).digitCount ((wide 32).slotAt 1).digitCount ∧
      ∃ k, ((wide 32).slotAt 0).bpd * (2 + 1) ≤ 8 * (((wide 32).slotAt 0).capacityBytes * 2 ^ k) ∧
        ((wide 32).slotAt 0).capacityBytes * 2 ^ k ≤ (wide 32).params.maxCapacityBytes) :=
  ⟨⟨demo_inv _ _ _ _ _, by decide +kernel, by decide +kernel, 0, by decide +kernel⟩,
    wide_inv (by decide), by decide +kernel, by decide +kernel, by decide +kernel, by decide +kernel, by decide +kernel, 1,
    by decide +kernel⟩

theorem witness_AddAssignFailsWithoutMutation :
    ((demo 0x20 0 0 0 []).Inv ∧ 3 < (demo 0x20 0 0 0 []).params.numSlots ∧
      ((demo 0x20 0 0 0 []).slotAt 3).state = .free ∧ ((demo 0x20 0 0 0 []).slotAt 0).state = .live ∧
      ((demo 0x20 0 0 0 []).slotAt 2).state = .live ∧
      ((demo 0x20 0 0 0 []).slotAt 0).base ≠ ((demo 0x20 0 0 0 []).slotAt 2).base) ∧
    ((wide 16).Inv ∧ ((wide 16).slotAt 0).state = .live ∧
      ∀ k, ((wide 16).slotAt 0).bpd * (2 + 1) ≤ 8 * (((wide 16).slotAt 0).capacityBytes * 2 ^ k) →
        (wide 16).params.maxCapacityBytes < ((wide 16).slotAt 0).capacityBytes * 2 ^ k) := by
  refine ⟨⟨demo_inv _ _ _ _ _, by decide +kernel⟩, wide_inv (by decide), by decide +kernel, fun k hk => ?_⟩
  have hb : ((wide 16).slotAt 0).bpd = 63 := by decide +kernel
  have hc : ((wide 16).slotAt 0).capacityBytes = 16 := by decide +kernel
  have hm : (wide 16).params.maxCapacityBytes = 16 := rfl
  rw [hb, hc] at hk
  rw [hc, hm]
  omega

theorem witness_CarryChainMakesANewTopDigit :
    (demo 0x10020 0 0 0 []).Inv ∧ 1 < (demo 0x10020 0 0 0 []).params.numSlots ∧
      ((demo 0x10020 0 0 0 []).slotAt 0).state = .live ∧ ((demo 0x10020 0 0 0 []).slotAt 1).state = .live ∧
      ((demo 0x10020 0 0 0 []).slotAt 0).base = ((demo 0x10020 0 0 0 []).slotAt 1).base ∧
      ((demo 0x10020 0 0 0 []).slotAt 0).digitCount = 3 ∧
      (∀ i, i < 3 → ((demo 0x10020 0 0 0 []).slotAt 0).digit i = ((demo 0x10020 0 0 0 []).slotAt 0).base - 1) ∧
      ((demo 0x10020 0 0 0 []).slotAt 1).value = 1 ∧
      ∃ j, ((demo 0x10020 0 0 0 []).slotAt 0).bpd * (3 + 1) ≤
          8 * (((demo 0x10020 0 0 0 []).slotAt 0).capacityBytes * 2 ^ j) ∧
        ((demo 0x10020 0 0 0 []).slotAt 0).capacityBytes * 2 ^ j ≤ (demo 0x10020 0 0 0 []).params.maxCapacityBytes :=
  ⟨demo_inv _ _ _ _ _, by decide +kernel, by decide +kernel, by decide +kernel, by decide +kernel, by decide +kernel,
    by decide +kernel, by decide +kernel, 0, by decide +kernel⟩

end Sys2Proof.Tests
end

section
/-! PROOFS. What each agent's move does to the state: the parts of the invariant, what a command leaves behind, and the
statements of 10_state.md. -/

namespace Sys2Proof.StateProofs

open Sys2Proof.Machine Sys2Proof.Laws Sys2Proof.Claims

/-! ## The invariant of `STATUS` -/

theorem statusInv_zero : Status.zero.Inv := ⟨by decide, by decide, by decide⟩

theorem statusInv_completeOk {t : Status} (h : t.Inv) : t.completeOk.Inv where
  cause_none := h.cause_none
  fault_idle := fun _ => rfl
  err_code := fun _ => Nat.zero_le 3

theorem errCode_le (e : ErrCode) : e.code.toNat ≤ 3 := by cases e <;> decide

theorem statusInv_completeError {t : Status} (h : t.Inv) (e : ErrCode) : (t.completeError e).Inv where
  cause_none := h.cause_none
  fault_idle := fun _ => rfl
  err_code := fun _ => errCode_le e

/-- A busy block has not faulted (60_exceptions.md R141). -/
theorem fault_eq_false_of_busy {t : Status} (h : t.Inv) (hb : t.busy = true) : t.fault = false := by
  by_contra hf
  have := h.fault_idle (by simpa using hf)
  rw [hb] at this
  cases this

/-- A fault other than `CMD_WHILE_BUSY` keeps `ERR`, which in a busy block is a code of 60_exceptions.md R136. -/
theorem statusInv_enterFault {t : Status} (h : t.Inv) (hb : t.busy = true) {c : FaultCause} (hc : c ≠ .none) :
    (t.enterFault c).Inv where
  cause_none := by simp [hc]
  fault_idle := fun _ => rfl
  err_code := fun _ => h.err_code (by simp [h.cause_none.2 (fault_eq_false_of_busy h hb)])

/-- After `CMD_WHILE_BUSY` the `ERR` field may hold any draw (60_exceptions.md R140). -/
theorem statusInv_cmdWhileBusy (t : Status) (e : BitVec 4) :
    ({ t.enterFault .cmdWhileBusy with err := e } : Status).Inv where
  cause_none := by simp
  fault_idle := fun _ => rfl
  err_code := fun hc => absurd rfl hc

theorem statusInv_issue {t : Status} (h : t.Inv) (hf : t.fault = false) : t.issue.Inv where
  cause_none := h.cause_none
  fault_idle := fun hf' => by simp [hf] at hf'
  err_code := h.err_code

/-! ## The invariant of the units -/

/-- The part of the block's invariant that speaks of the parameters, the slot file and the scratch buffer, field by
field as in `State.Inv` (`inv_iff`). -/
structure UnitsInv (p : Params) (slots : List Slot) (bf : Memory) (bfLen : Nat) : Prop where
  params_valid : p.Valid
  slot_count : slots.length = p.numSlots
  slots_inv : ∀ sl ∈ slots, sl.Inv p.maxCapacityBytes
  bf_canonical : bf.wf
  bf_inside : bf.Below p.bfBufBytes
  bfLen_le : bfLen ≤ p.bfBufBytes

/-- The state's units have their part of the invariant. -/
abbrev UnitsOk (s : State) : Prop := UnitsInv s.params s.slots s.bf s.bfLen

/-- The block's invariant is that of the units, that of `STATUS`, and `CMD` equal to the latched word while busy. -/
theorem inv_iff (s : State) :
    s.Inv ↔ UnitsOk s ∧ s.status.Inv ∧ (s.status.busy = true → s.cmd = s.latch.word) :=
  ⟨fun ⟨h1, h2, h3, h4, h5, h6, h7, h8⟩ => ⟨⟨h1, h2, h3, h4, h5, h6⟩, h7, h8⟩,
    fun ⟨⟨h1, h2, h3, h4, h5, h6⟩, h7, h8⟩ => ⟨h1, h2, h3, h4, h5, h6, h7, h8⟩⟩

theorem unitsOk {s : State} (h : s.Inv) : UnitsOk s := ((inv_iff s).1 h).1

/-- A block that is not busy: its units and its `STATUS` are all the invariant speaks of. -/
theorem inv_of_idle {s : State} (hu : UnitsOk s) (hs : s.status.Inv) (hb : s.status.busy = false) : s.Inv :=
  (inv_iff s).2 ⟨hu, hs, fun hb' => by rw [hb] at hb'; cases hb'⟩

theorem slotInv_free (M : Nat) : Slot.free.Inv M := ⟨fun _ => rfl, nofun⟩

theorem slotInv_of_live {M : Nat} {sl : Slot} (hl : sl.state = .live) (h : sl.LiveInv M) : sl.Inv M :=
  ⟨fun hf => (nomatch hl.symm.trans hf), fun _ => h⟩

theorem unitsInv_set {p : Params} {slots : List Slot} {bf : Memory} {n : Nat} (h : UnitsInv p slots bf n) (a : Nat)
    {sl : Slot} (hsl : sl.Inv p.maxCapacityBytes) : UnitsInv p (slots.set a sl) bf n :=
  { h with
    slot_count := by rw [List.length_set]; exact h.slot_count
    slots_inv := fun x hx => by
      rcases List.mem_or_eq_of_mem_set hx with hx | rfl
      · exact h.slots_inv x hx
      · exact hsl }

theorem unitsOk_resetWith {p : Params} (h : p.Valid) : UnitsOk (State.resetWith p) where
  params_valid := h
  slot_count := List.length_replicate
  slots_inv := fun sl hsl => by rw [List.eq_of_mem_replicate hsl]; exact slotInv_free _
  bf_canonical := ⟨List.Pairwise.nil, nofun⟩
  bf_inside := nofun
  bfLen_le := Nat.zero_le _

/-! ## What a command leaves behind -/

/-- What a command's outcome can be, command by command: a fault, an error, a value with the state as it was, or one
change of the command's own unit within that unit's bounds. The causes of the faults are in `commandOf_bounded`. -/
inductive CommandEffect (s : State) : Instr → CmdOutcome → Prop
  /-- `raise Fault(c)`. -/
  | faulted (i : Instr) (c : FaultCause) : CommandEffect s i (.fault c)
  /-- `return Error(e)`. -/
  | failed (i : Instr) (e : ErrCode) : CommandEffect s i (.error e)
  /-- `return Ok(v)`. -/
  | returned {i : Instr} (hi : returnsValue i = true) (v : Nat) : CommandEffect s i (.okValue s v)
  /-- 40_bitfield.md R98. -/
  | lengthSet {n : Nat} (hn : n ≤ s.params.bfBufBytes) : CommandEffect s .bfSetLen (.ok { s with bfLen := n })
  /-- 40_bitfield.md R100. -/
  | byteWritten {k : Nat} (hk : k < s.params.bfBufBytes) (b : Byte) :
      CommandEffect s .bfWriteByte (.ok { s with bf := s.bf.write k b })
  /-- 40_bitfield.md R103, R105. -/
  | bitsWritten {i : Instr} (hi : i = .bfSetBits ∨ i = .bfSetSpan) {start w : Nat} (hw : start + w ≤ 8 * s.bfLen)
      (v : Nat) : CommandEffect s i (.ok { s with bf := writeBits s.bf s.bfLen start v w })
  /-- 41_packed_number.md R114. -/
  | constructed {a x b : Nat} (hf : (s.slotAt a).state = .free) (hx : x < 2 ^ 64) (hb1 : Config.baseMin ≤ b)
      (hb2 : b ≤ Config.baseMax) (hc : (builtSlot x b).capacityBytes ≤ s.params.maxCapacityBytes) :
      CommandEffect s (.construct a) (.ok (s.setSlot a (builtSlot x b)))
  /-- 41_packed_number.md R115. -/
  | released (a : Nat) : CommandEffect s (.release a) (.ok (s.setSlot a Slot.free))
  /-- 41_packed_number.md R117. -/
  | digitSet {a i v : Nat} (hl : (s.slotAt a).state = .live) (hi : i < (s.slotAt a).capDigits)
      (hv : v < (s.slotAt a).base) : CommandEffect s (.setDigitAt a) (.ok (s.setSlot a ((s.slotAt a).withDigit i v)))
  /-- 42_carry_adder.md R127: `g` is the destination grown for one digit more than the longer operand has. -/
  | added {a b m : Nat} {g : Slot} (hl : (s.slotAt a).state = .live) (hr : (s.slotAt b).state = .live)
      (hb : (s.slotAt a).base = (s.slotAt b).base) (hm : m = max (s.slotAt a).digitCount (s.slotAt b).digitCount)
      (hg : ensureCapacity s.params.maxCapacityBytes (s.slotAt a) (m + 1) = .ok g) :
      CommandEffect s (.addAssign a b)
        (.ok (s.setSlot a (addInto g (s.slotAt a).addend (s.slotAt b).addend m)))

theorem effect_needSlot {s : State} {i : Instr} {a : Nat} {k : CmdOutcome} (h : CommandEffect s i k) :
    CommandEffect s i (needSlot s a k) := by
  rcases needSlot_cases s a k with ⟨-, e⟩ | ⟨-, e⟩ <;> rw [e]
  · exact .faulted i _
  · exact h

theorem effect_needState {s : State} {i : Instr} {a : Nat} {want : SlotState} {k : Slot → CmdOutcome}
    (h : (s.slotAt a).state = want → CommandEffect s i (k (s.slotAt a))) :
    CommandEffect s i (needState s a want k) := by
  rcases needState_cases s a want k with ⟨-, e⟩ | ⟨hw, e⟩ <;> rw [e]
  · exact .faulted i _
  · exact h hw

theorem effect_slotOperand {s : State} {i : Instr} {a : Nat} {want : SlotState} {k : Slot → CmdOutcome}
    (h : (s.slotAt a).state = want → CommandEffect s i (k (s.slotAt a))) :
    CommandEffect s i (slotOperand s a want k) :=
  effect_needSlot (effect_needState h)

theorem effect_returnRead {s : State} {i : Instr} (hi : returnsValue i = true) (r : Except FaultCause Nat) :
    CommandEffect s i (returnRead s r) := by
  cases r with
  | ok v => exact .returned hi v
  | error c => exact .faulted i c

theorem effect_storeBits {s : State} {i : Instr} (hi : i = .bfSetBits ∨ i = .bfSetSpan) (start stop v : Nat) :
    CommandEffect s i (storeBf s (setBits s.bf s.bfLen start stop v)) := by
  rcases setBits_cases s.bf s.bfLen start stop v with ⟨⟨hlt, -, hle⟩, -, e⟩ | ⟨-, e⟩ | ⟨-, -, e⟩ <;> rw [e]
  · exact .bitsWritten hi (by omega) v
  · exact .faulted i _
  · exact .faulted i _

/-- A LIVE slot's query (41_packed_number.md R118 to R121). -/
theorem effect_query {s : State} {i : Instr} (hi : returnsValue i = true) (a : Nat) (f : Slot → Nat) :
    CommandEffect s i (slotOperand s a .live fun sl => .okValue s (f sl)) :=
  effect_slotOperand fun _ => .returned hi _

theorem effect_construct (s : State) (a : Nat) : CommandEffect s (.construct a) (construct a s) := by
  refine effect_slotOperand fun hf => ?_
  split
  · exact .failed _ _
  · next hb =>
    obtain ⟨hb1, hb2⟩ := not_or.1 hb
    dsimp only
    split
    · exact .failed _ _
    · next hc => exact .constructed hf s.latch.a0.isLt (Nat.not_lt.1 hb1) (Nat.not_lt.1 hb2) (Nat.not_lt.1 hc)

theorem effect_setDigitAt (s : State) (a : Nat) : CommandEffect s (.setDigitAt a) (setDigitAt a s) := by
  refine effect_slotOperand fun hl => ?_
  split
  · exact .faulted _ _
  · next hi =>
    split
    · exact .faulted _ _
    · next hv => exact .digitSet hl (Nat.not_le.1 hi) (Nat.not_le.1 hv)

theorem effect_addAssign (s : State) (a b : Nat) : CommandEffect s (.addAssign a b) (addAssign a b s) := by
  refine effect_needSlot (effect_needSlot (effect_needState fun hl => effect_needState fun hr => ?_))
  split
  · exact .failed _ _
  · next hb =>
    unfold addSlots
    dsimp only
    cases hg : ensureCapacity s.params.maxCapacityBytes (s.slotAt a)
        (max (s.slotAt a).digitCount (s.slotAt b).digitCount + 1) with
    | error e => exact .failed _ e
    | ok g => exact .added hl hr (not_not.1 hb) rfl hg

/-- Every command's outcome is one of these (30_encoding.md R78). -/
theorem commandOf_effect (i : Instr) (s : State) : CommandEffect s i (commandOf i s) := by
  cases i with
  | bfSetLen =>
    simp only [commandOf, bfSetLen]
    split
    · exact .faulted _ _
    · next h => exact .lengthSet (Nat.not_lt.1 h)
  | bfGetLen => exact .returned rfl _
  | bfWriteByte =>
    simp only [commandOf, bfWriteByte]
    split
    · exact .faulted _ _
    · next h =>
      split
      · exact .faulted _ _
      · exact .byteWritten (Nat.not_le.1 h) _
  | bfReadByte =>
    simp only [commandOf, bfReadByte]
    split
    · exact .faulted _ _
    · exact .returned rfl _
  | bfGetBits => exact effect_returnRead rfl _
  | bfSetBits => exact effect_storeBits (.inl rfl) _ _ _
  | bfGetSpan => exact effect_returnRead rfl _
  | bfSetSpan => exact effect_storeBits (.inr rfl) _ _ _
  | construct a => exact effect_construct s a
  | release a => exact effect_slotOperand fun _ => .released a
  | digitAt a =>
    refine effect_slotOperand fun _ => ?_
    split
    · exact .faulted _ _
    · exact .returned rfl _
  | setDigitAt a => exact effect_setDigitAt s a
  | getBase a => exact effect_query rfl a Slot.base
  | getBpd a => exact effect_query rfl a Slot.bpd
  | getDigitCount a => exact effect_query rfl a Slot.digitCount
  | getCapacity a => exact effect_query rfl a Slot.capacityBytes
  | addAssign a b => exact effect_addAssign s a b

/-! ## Every step keeps the invariant -/

/-- A command that ends in Ok keeps the invariant of the units. -/
theorem unitsOk_of_effect {s t : State} {i : Instr} (h : s.Inv) (he : CommandEffect s i (.ok t)) : UnitsOk t := by
  have hu := unitsOk h
  cases he with
  | lengthSet hn => exact { hu with bfLen_le := hn }
  | byteWritten hk b =>
    exact { hu with
      bf_canonical := wf_write hu.bf_canonical _ b
      bf_inside := below_write hu.bf_inside hk b }
  | bitsWritten _ hw v =>
    exact { hu with
      bf_canonical := wf_writeBits hu.bf_canonical _ _ v _
      bf_inside := below_writeBits hu.bf_inside hw hu.bfLen_le }
  | constructed _ hx hb1 hb2 hc => exact unitsInv_set hu _ (slotInv_of_live rfl (builtSlot_spec hx hb1 hb2 hc).1)
  | released a => exact unitsInv_set hu a (slotInv_free _)
  | digitSet hl hi hv =>
    exact unitsInv_set hu _ (slotInv_of_live hl (withDigit_spec (liveInv_slotAt h hl) hi hv).1)
  | added hl hr hb hm hg =>
    obtain ⟨hinv, -, -, hstate, -⟩ := addInto_spec (liveInv_slotAt h hl) (liveInv_slotAt h hr) hb hm hg
    exact unitsInv_set hu _ (slotInv_of_live (hstate.trans hl) hinv)

/-- Fault entry of a pending command keeps the invariant (60_exceptions.md R139). -/
theorem inv_takeFault {s : State} (h : s.Inv) (hb : s.status.busy = true) {c : FaultCause} (hc : c ≠ .none) :
    (s.takeFault c).Inv :=
  have hu := unitsOk h
  inv_of_idle hu (statusInv_enterFault h.status_inv hb hc) rfl

/-- The pending command, completed, keeps the invariant (30_encoding.md R75). -/
theorem inv_complete {s : State} (h : s.Inv) (hb : s.status.busy = true) (i : Instr) :
    (complete s (commandOf i s)).Inv := by
  have hu := unitsOk h
  have hbound := commandOf_bounded i s
  have heff := commandOf_effect i s
  cases ho : commandOf i s with
  | ok t =>
    rw [ho] at hbound heff
    have hst : t.status = s.status := by rw [show t = _ from hbound]
    have hut := unitsOk_of_effect h heff
    exact inv_of_idle hut (statusInv_completeOk (hst ▸ h.status_inv)) rfl
  | okValue t v =>
    rw [ho] at hbound
    obtain rfl : t = s := hbound
    exact inv_of_idle hu (statusInv_completeOk h.status_inv) rfl
  | error e => exact inv_of_idle hu (statusInv_completeError h.status_inv e) rfl
  | fault c =>
    rw [ho] at hbound
    exact inv_takeFault h hb (by rcases hbound with rfl | rfl | rfl | rfl | rfl <;> decide)

/-- The engine's turn keeps the invariant. -/
theorem inv_engineTurn {s t : State} (h : s.Inv) (ht : engineTurn s = .next t) : t.Inv := by
  rcases engineTurn_cases ht with ⟨-, rfl⟩ | ⟨hb, i, -, rfl⟩ | ⟨hb, -, -, rfl⟩
  · exact h
  · exact inv_complete h hb i
  · exact inv_takeFault h hb (by decide)

/-- The moves still to come are none of the invariant's. -/
theorem inv_schedule {s : State} (h : s.Inv) (rest : List Event) : State.Inv { s with schedule := rest } :=
  (inv_iff _).2 ((inv_iff s).1 h)

theorem inv_hostReadReg {s : State} (h : s.Inv) (r : WindowReg) : (hostReadReg s r).Inv :=
  (inv_iff _).2 ((inv_iff s).1 h)

/-- A `CMD` write is dropped, faults, or issues the command with `CMD` the latched word (30_encoding.md R74). -/
theorem inv_hostWriteCmd {s : State} (h : s.Inv) (v : Word) : (hostWriteCmd s v).Inv := by
  have hu := unitsOk h
  unfold hostWriteCmd
  split
  · exact h
  · next hf =>
    split
    · exact inv_of_idle hu (statusInv_cmdWhileBusy _ _) rfl
    · exact (inv_iff _).2 ⟨hu, statusInv_issue h.status_inv (by simpa using hf), fun _ => rfl⟩

theorem inv_hostWriteReg {s : State} (h : s.Inv) (v : Word) (r : WindowReg) : (hostWriteReg s v r).Inv := by
  cases r with
  | cmd => exact inv_hostWriteCmd h v
  | arg0 => exact (inv_iff _).2 ((inv_iff s).1 h)
  | arg1 => exact (inv_iff _).2 ((inv_iff s).1 h)
  | arg2 => exact (inv_iff _).2 ((inv_iff s).1 h)
  | result => exact h
  | status => exact h
  | reserved => exact h

theorem inv_hostReset {s : State} (h : s.Inv) : s.hostReset.Inv :=
  inv_of_idle (unitsOk_resetWith h.params_valid) statusInv_zero rfl

/-- Settles O24, by the cases of one step: whose move it is, and what the move leaves. -/
theorem everyStepKeepsTheInvariant : Obligations.EveryStepKeepsTheInvariant := by
  intro s t h ht
  rcases step_cases ht with ⟨-, hturn⟩ | ⟨rest, ⟨-, hturn⟩ | ⟨_, _, -, rfl⟩ | ⟨_, _, v, -, rfl⟩ | ⟨-, rfl⟩⟩
  · exact inv_engineTurn h hturn
  · exact inv_engineTurn (inv_schedule h rest) hturn
  · exact inv_hostReadReg (inv_schedule h rest) _
  · exact inv_hostWriteReg (inv_schedule h rest) v _
  · exact inv_hostReset (inv_schedule h rest)

/-! ## What the end of a command changes -/

/-- Whatever a command's outcome, its completion changes `RESULT`, `STATUS` and the units alone (60_exceptions.md
R135). -/
theorem complete_frame {s : State} {o : CmdOutcome} (h : OutcomeBounded s o) :
    complete s o = { s with
      result := (complete s o).result, status := (complete s o).status, bf := (complete s o).bf,
      bfLen := (complete s o).bfLen, slots := (complete s o).slots } := by
  cases o with
  | ok t => rw [show t = _ from h]; rfl
  | okValue t v => obtain rfl : t = s := h; rfl
  | error e => rfl
  | fault c => rfl

/-- Settles O28: no command's Ok writes RESULT, and a command that returns a value has no other Ok. -/
theorem resultIsWrittenOnlyByValueCommands : Obligations.ResultIsWrittenOnlyByValueCommands := by
  intro i s
  refine ⟨_, exec_eq i s, ?_⟩
  generalize ho : commandOf i s = o
  have heff : CommandEffect s i o := ho ▸ commandOf_effect i s
  cases heff with
  | faulted | failed => exact ⟨fun _ => rfl, fun _ => rfl⟩
  | returned hi v => exact ⟨fun hn => (nomatch hi.symm.trans hn), fun _ => rfl⟩
  | bitsWritten hi hw v => exact ⟨fun _ => rfl, fun hr => by rcases hi with rfl | rfl <;> cases hr⟩
  | lengthSet | byteWritten | constructed | released | digitSet | added => exact ⟨fun _ => rfl, nofun⟩

/-- What a slot that stays LIVE keeps (10_state.md R30, R31, R33). -/
def KeepsShape (old new : Slot) : Prop :=
  old.state = .live → new.state = .live →
    new.base = old.base ∧ new.bpd = old.bpd ∧ old.capacityBytes ≤ new.capacityBytes

theorem keepsShape_refl (sl : Slot) : KeepsShape sl sl := fun _ _ => ⟨rfl, rfl, le_rfl⟩

theorem keepsShape_of_free {old new : Slot} (h : old.state = .free) : KeepsShape old new :=
  fun hl _ => by rw [h] at hl; cases hl

/-- Where the slot replaced keeps its shape, every slot does. An index beyond the slot file replaces nothing. -/
theorem keepsShape_setSlot {s : State} {a : Nat} {sl : Slot} (h : KeepsShape (s.slotAt a) sl) (j : Nat) :
    KeepsShape (s.slotAt j) ((s.setSlot a sl).slotAt j) := by
  by_cases hj : a = j
  · subst hj
    by_cases ha : a < s.slots.length
    · rwa [slotAt_setSlot_same ha]
    · rw [State.setSlot, List.set_eq_of_length_le (by omega)]
      exact keepsShape_refl _
  · rw [slotAt_setSlot_other s hj]
    exact keepsShape_refl _

/-- Addition keeps the base and the width of its destination, and growth only adds bytes. -/
theorem keepsShape_addInto {M m : Nat} {d r g : Slot} (hd : d.LiveInv M) (hr : r.LiveInv M) (hb : d.base = r.base)
    (hm : m = max d.digitCount r.digitCount) (hg : ensureCapacity M d (m + 1) = .ok g) :
    KeepsShape d (addInto g d.addend r.addend m) := by
  obtain ⟨-, -, -, -, hbase, hbpd, hcap⟩ := addInto_spec hd hr hb hm hg
  obtain ⟨-, -, hgrow, -⟩ := ensureCapacity_ok (one_le_capacityBytes hd) hd.capacity_le hd.canonical hd.inside hg
  exact fun _ _ => ⟨hbase, hbpd, hcap ▸ hgrow⟩

/-- Settles O32, by what a command can leave in a slot. -/
theorem liveSlotsKeepBaseAndNeverShrink : Obligations.LiveSlotsKeepBaseAndNeverShrink := by
  intro i s h
  refine ⟨_, exec_eq i s, ?_⟩
  generalize ho : commandOf i s = o
  have heff : CommandEffect s i o := ho ▸ commandOf_effect i s
  change ∀ j, KeepsShape (s.slotAt j) ((complete s o).slotAt j)
  cases heff with
  | faulted | failed | returned | lengthSet | byteWritten | bitsWritten => exact fun j => keepsShape_refl (s.slotAt j)
  | constructed hf _ _ _ _ => exact keepsShape_setSlot (keepsShape_of_free hf)
  | released a => exact keepsShape_setSlot fun _ hl => nomatch hl
  | digitSet _ _ _ => exact keepsShape_setSlot fun _ _ => ⟨rfl, rfl, le_rfl⟩
  | added hl hr hb hm hg =>
    exact keepsShape_setSlot (keepsShape_addInto (liveInv_slotAt h hl) (liveInv_slotAt h hr) hb hm hg)

/-! ## One step changes no parameter and records at most one read -/

/-- `t` has the parameters of `s`, and at most one value more was read (10_state.md R42, R44). -/
def KeepsParamsAndReads (s t : State) : Prop :=
  t.params = s.params ∧ (t.observed = s.observed ∨ ∃ v, t.observed = s.observed ++ [v])

theorem keepsParamsAndReads_engineTurn {s t : State} (h : engineTurn s = .next t) : KeepsParamsAndReads s t := by
  rcases engineTurn_cases h with ⟨-, rfl⟩ | ⟨-, i, -, rfl⟩ | ⟨-, _, -, rfl⟩
  · exact ⟨rfl, .inl rfl⟩
  · rw [complete_frame (commandOf_bounded i s)]
    exact ⟨rfl, .inl rfl⟩
  · exact ⟨rfl, .inl rfl⟩

theorem keepsParamsAndReads_hostWriteReg (s : State) (v : Word) (r : WindowReg) :
    KeepsParamsAndReads s (hostWriteReg s v r) := by
  cases r with
  | cmd =>
    simp only [hostWriteReg, hostWriteCmd]
    split
    · exact ⟨rfl, .inl rfl⟩
    · split <;> exact ⟨rfl, .inl rfl⟩
  | _ => exact ⟨rfl, .inl rfl⟩

/-- Settles O34, by the cases of one step: only a host read adds to what the host has read. -/
theorem stepsKeepParametersAndReads : Obligations.StepsKeepParametersAndReads := by
  intro s t h
  rcases step_cases h with ⟨-, hturn⟩ | ⟨rest, ⟨-, hturn⟩ | ⟨_, _, -, rfl⟩ | ⟨_, _, v, -, rfl⟩ | ⟨-, rfl⟩⟩
  · exact keepsParamsAndReads_engineTurn hturn
  · exact keepsParamsAndReads_engineTurn (s := { s with schedule := rest }) hturn
  · exact ⟨rfl, .inr ⟨_, rfl⟩⟩
  · exact keepsParamsAndReads_hostWriteReg { s with schedule := rest } v _
  · exact ⟨rfl, .inl rfl⟩

/-! ## The bits of the `STATUS` word -/

/-- The layout of `STATUS`, bit by bit (10_state.md R19). -/
theorem getLsbD_statusWord (t : Status) (k : Nat) :
    t.word.getLsbD k =
      if k = 0 then t.busy else if k = 1 then t.fault else if k < 4 then false
      else if k < 8 then t.err.getLsbD (k - 4) else if k < 16 then t.cause.code.getLsbD (k - 8) else false := by
  simp only [Status.word, BitVec.getLsbD_append, BitVec.getLsbD_ofBool, BitVec.getLsbD_zero]
  rcases k with _ | _ | k
  · simp
  · simp
  · grind

theorem statusWord_busy (t : Status) : t.word.getLsbD 0 = t.busy := getLsbD_statusWord t 0

theorem statusWord_fault (t : Status) : t.word.getLsbD 1 = t.fault := getLsbD_statusWord t 1

theorem statusWord_err (t : Status) {j : Nat} (hj : j < 4) : t.word.getLsbD (4 + j) = t.err.getLsbD j := by
  rw [getLsbD_statusWord, if_neg (by omega), if_neg (by omega), if_neg (by omega), if_pos (by omega),
    Nat.add_sub_cancel_left]

theorem statusWord_cause (t : Status) {j : Nat} (hj : j < 8) :
    t.word.getLsbD (8 + j) = t.cause.code.getLsbD j := by
  rw [getLsbD_statusWord, if_neg (by omega), if_neg (by omega), if_neg (by omega), if_neg (by omega),
    if_pos (by omega), Nat.add_sub_cancel_left]

/-- The reserved bits of `STATUS` are 0 (10_state.md R24). -/
theorem statusWord_reserved (t : Status) {k : Nat} (hk : k = 2 ∨ k = 3 ∨ 16 ≤ k) : t.word.getLsbD k = false := by
  rw [getLsbD_statusWord, if_neg (by omega), if_neg (by omega)]
  split
  · rfl
  · rw [if_neg (by omega), if_neg (by omega)]

/-- A field of a word is known by its bits. -/
theorem extractLsb'_eq {n w start : Nat} {x : BitVec n} {y : BitVec w}
    (h : ∀ j, j < w → x.getLsbD (start + j) = y.getLsbD j) : x.extractLsb' start w = y :=
  BitVec.eq_of_getLsbD_eq fun j hj => by rw [BitVec.getLsbD_extractLsb', h j hj, decide_eq_true hj, Bool.true_and]

/-- The layout of `STATUS`, field by field. -/
theorem statusWord_fields (t : Status) :
    t.word.getLsbD 0 = t.busy ∧ t.word.getLsbD 1 = t.fault ∧ t.word.extractLsb' 2 2 = 0 ∧
      t.word.extractLsb' 4 4 = t.err ∧ t.word.extractLsb' 8 8 = t.cause.code ∧ t.word.extractLsb' 16 48 = 0 := by
  refine ⟨statusWord_busy t, statusWord_fault t, extractLsb'_eq fun j hj => ?_,
    extractLsb'_eq fun j => statusWord_err t, extractLsb'_eq fun j => statusWord_cause t,
    extractLsb'_eq fun j hj => ?_⟩
  · rw [statusWord_reserved t (by omega)]
    exact BitVec.getLsbD_zero.symm
  · rw [statusWord_reserved t (by omega)]
    exact BitVec.getLsbD_zero.symm

/-- Settles O14: the codes are those of the definitions. -/
theorem statusWordLayout : Obligations.StatusWordLayout :=
  ⟨statusWord_fields, ⟨rfl, rfl, rfl, rfl, rfl, rfl, rfl, rfl⟩, rfl, rfl, rfl⟩

/-! ## Host accesses at the window's registers -/

/-- An aligned 64-bit access at an offset of the window reaches the register there (20_memory.md R46, R47). -/
theorem windowAccess_aligned (s : State) {off : Nat} (hoff : off < 64) (hal : off % 8 = 0) (k : WindowReg → State) :
    windowAccess s (s.params.regBase + off) 8 k = .next (k (windowReg off)) := by
  have hsub : s.params.regBase + off - s.params.regBase = off := Nat.add_sub_cancel_left _ _
  rcases windowAccess_cases s (s.params.regBase + off) 8 k with ⟨hout, -⟩ | ⟨-, hw, -⟩ | ⟨-, -, hm, -⟩ | ⟨-, -, -, e⟩
  · omega
  · exact absurd rfl hw
  · omega
  · rwa [hsub] at e

theorem step_hostRead {s : State} {off : Nat} {rest : List Event} (hoff : off < 64) (hal : off % 8 = 0)
    (hs : s.schedule = .read (s.params.regBase + off) 8 :: rest) :
    step s = .next (hostReadReg { s with schedule := rest } (windowReg off)) := by
  unfold step nextMove
  rw [hs]
  exact windowAccess_aligned { s with schedule := rest } hoff hal _

theorem step_hostWrite {s : State} {off : Nat} {v : Word} {rest : List Event} (hoff : off < 64) (hal : off % 8 = 0)
    (hs : s.schedule = .write (s.params.regBase + off) 8 v :: rest) :
    step s = .next (hostWriteReg { s with schedule := rest } v (windowReg off)) := by
  unfold step nextMove
  rw [hs]
  exact windowAccess_aligned { s with schedule := rest } hoff hal _

/-- A write that leaves `t` whatever the moves to come. -/
theorem writeLeaves {s t : State} {off : Nat} {v : Word} (hoff : off < 64) (hal : off % 8 = 0)
    (h : ∀ rest, hostWriteReg { s with schedule := rest } v (windowReg off) = { t with schedule := rest }) :
    WriteLeaves s off v t :=
  fun rest hs => by rw [step_hostWrite hoff hal hs, h rest]

/-- The moves to come do not show in a read. -/
theorem hostReadReg_withSchedule (s : State) (rest : List Event) (r : WindowReg) :
    hostReadReg { s with schedule := rest } r = { s with
      schedule := rest
      observed := s.observed ++ [windowValue s r]
      draws := if readDraws s r then s.draws + 1 else s.draws } := by
  cases r <;> rfl

/-- A read that is no draw gives the register's value and changes nothing of the block. -/
theorem readGives {s : State} {off : Nat} (hoff : off < 64) (hal : off % 8 = 0)
    (hd : readDraws s (windowReg off) = false) : ReadGives s off (windowValue s (windowReg off)) := by
  intro rest hs
  rw [step_hostRead hoff hal hs, hostReadReg_withSchedule, hd]
  rfl

/-- No read is a draw while idle. -/
theorem readDraws_of_idle {s : State} (hb : s.status.busy = false) (r : WindowReg) : readDraws s r = false := by
  rw [readDraws, hb, Bool.false_and]

/-- Reads of `RESULT` and of `STATUS` are draws while busy (10_state.md R17, R22). -/
theorem readDraws_of_busy {s : State} (hb : s.status.busy = true) {r : WindowReg} (hr : r = .result ∨ r = .status) :
    readDraws s r = true := by
  rcases hr with rfl | rfl <;> rw [readDraws, hb] <;> rfl

/-- Reads of the other registers are none, busy or not. -/
theorem readDraws_eq_false (s : State) {r : WindowReg} (h1 : r ≠ .result) (h2 : r ≠ .status) :
    readDraws s r = false := by
  simp [readDraws, h1, h2]

theorem windowValue_result_of_idle {s : State} (hb : s.status.busy = false) : windowValue s .result = s.result := by
  simp [windowValue, readDraws_of_idle hb]

theorem windowValue_status_of_idle {s : State} (hb : s.status.busy = false) :
    windowValue s .status = s.status.word := by
  simp [windowValue, readDraws_of_idle hb]

theorem windowValue_result_of_busy {s : State} (hb : s.status.busy = true) :
    windowValue s .result = Config.freeResult s.draws := by
  simp [windowValue, readDraws_of_busy hb (.inl rfl)]

theorem windowValue_status_of_busy {s : State} (hb : s.status.busy = true) :
    windowValue s .status = Status.word { s.status with err := Config.freeErr s.draws } := by
  simp [windowValue, readDraws_of_busy hb (.inr rfl)]

/-- `CMD` and the operand registers read exactly, busy or not. -/
theorem readGives_cmd_args (s : State) :
    ReadGives s 0x00 s.cmd ∧ ReadGives s 0x08 s.arg0 ∧ ReadGives s 0x10 s.arg1 ∧ ReadGives s 0x18 s.arg2 :=
  ⟨readGives (off := 0x00) (by decide) rfl (readDraws_eq_false s (by decide) (by decide)),
    readGives (off := 0x08) (by decide) rfl (readDraws_eq_false s (by decide) (by decide)),
    readGives (off := 0x10) (by decide) rfl (readDraws_eq_false s (by decide) (by decide)),
    readGives (off := 0x18) (by decide) rfl (readDraws_eq_false s (by decide) (by decide))⟩

/-- Settles O11. -/
theorem operandWritesAlwaysStore : Obligations.OperandWritesAlwaysStore := fun _ _ =>
  ⟨writeLeaves (by decide) rfl fun _ => rfl, writeLeaves (by decide) rfl fun _ => rfl,
    writeLeaves (by decide) rfl fun _ => rfl⟩

/-- Settles O12. -/
theorem idleReadsGiveTheRegisters : Obligations.IdleReadsGiveTheRegisters := by
  intro s hb
  obtain ⟨hcmd, harg0, harg1, harg2⟩ := readGives_cmd_args s
  have hresult := readGives (off := 0x20) (by decide) rfl (readDraws_of_idle hb (windowReg 0x20))
  have hstatus := readGives (off := 0x28) (by decide) rfl (readDraws_of_idle hb (windowReg 0x28))
  exact ⟨hcmd, harg0, harg1, harg2, windowValue_result_of_idle hb ▸ hresult, windowValue_status_of_idle hb ▸ hstatus⟩

/-- A read that is a draw advances the count of draws. -/
theorem step_hostRead_of_draw {s : State} {off : Nat} {rest : List Event} (hoff : off < 64) (hal : off % 8 = 0)
    (hd : readDraws s (windowReg off) = true) (hs : s.schedule = .read (s.params.regBase + off) 8 :: rest) :
    step s = .next { s with
      schedule := rest, observed := s.observed ++ [windowValue s (windowReg off)], draws := s.draws + 1 } := by
  rw [step_hostRead hoff hal hs, hostReadReg_withSchedule, if_pos hd]

/-- Settles O13: the word drawn for STATUS is laid out as every STATUS is. -/
theorem busyReadsDrawResultAndErr : Obligations.BusyReadsDrawResultAndErr := by
  intro s hb
  refine ⟨fun rest hs => ?_, fun rest hs => ?_, readGives_cmd_args s⟩
  · have hstep := step_hostRead_of_draw (by decide) rfl (readDraws_of_busy hb (.inl rfl)) hs
    rwa [show windowReg 0x20 = .result from rfl, windowValue_result_of_busy hb] at hstep
  · have hstep := step_hostRead_of_draw (by decide) rfl (readDraws_of_busy hb (.inr rfl)) hs
    rw [show windowReg 0x28 = .status from rfl, windowValue_status_of_busy hb] at hstep
    obtain ⟨hbusy, hrest⟩ := statusWord_fields { s.status with err := Config.freeErr s.draws }
    exact ⟨_, hstep, hbusy.trans hb, hrest⟩

/-- Settles O15. -/
theorem reservedBitsAndOffsetsReadZero : Obligations.ReservedBitsAndOffsetsReadZero := by
  refine ⟨fun t _ => statusWord_reserved t, fun s v => ⟨?_, ?_, ?_, ?_⟩⟩
  · exact readGives (off := 0x30) (by decide) rfl (readDraws_eq_false s (by decide) (by decide))
  · exact readGives (off := 0x38) (by decide) rfl (readDraws_eq_false s (by decide) (by decide))
  · exact writeLeaves (by decide) rfl fun _ => rfl
  · exact writeLeaves (by decide) rfl fun _ => rfl

/-! ## The state after reset -/

/-- The state after reset has the invariant, for every valid choice of the parameters. -/
theorem inv_resetWith {p : Params} (h : p.Valid) : (State.resetWith p).Inv :=
  inv_of_idle (unitsOk_resetWith h) statusInv_zero rfl

theorem params_reference_valid : Params.reference.Valid := by decide

/-- Settles O22. -/
theorem resetStateHoldsTheResetTable : Obligations.ResetStateHoldsTheResetTable := by
  refine ⟨⟨Params.reference, params_reference_valid, rfl⟩, fun p => ?_⟩
  have hword : (State.resetWith p).status.word = 0 := (by decide : Status.zero.word = 0)
  exact ⟨rfl, rfl, rfl, rfl, rfl, hword, rfl, fun _ => rfl, rfl, rfl⟩

/-- Settles O23; `State.reset` is the state after reset in the reference configuration (log 1). -/
theorem resetStateMeetsTheInvariant : Obligations.ResetStateMeetsTheInvariant :=
  ⟨inv_resetWith params_reference_valid, fun _ => inv_resetWith⟩

end Sys2Proof.StateProofs
end

section
/-! PROOFS. The statements of 20_memory.md: the accesses to the window, the issue of a command, which unit a command
writes and what its outcome rests on, and the bit view of a buffer as a big-endian number. -/

namespace Sys2Proof.MemoryProofs

open Sys2Proof.Machine Sys2Proof.Laws Sys2Proof.Claims Sys2Proof.StateProofs

/-! ## What an access answers (20_memory.md R46, R47) -/

/-- The move at the head of the schedule is the step; the move itself leaves the schedule. -/
theorem step_of_schedule {s : State} {e : Event} {rest : List Event} (hs : s.schedule = e :: rest) :
    step s = runEvent { s with schedule := rest } e := by
  unfold step nextMove
  rw [hs]

/-- A read and a write are accesses alike: they differ only in what an admitted one leaves. -/
theorem step_hostAccess {s : State} {addr bytes : Nat} {v : Word} {rest : List Event}
    (hs : s.schedule = .read addr bytes :: rest ∨ s.schedule = .write addr bytes v :: rest) :
    ∃ k, step s = windowAccess { s with schedule := rest } addr bytes k := by
  rcases hs with hs | hs <;> exact ⟨_, step_of_schedule hs⟩

theorem windowAccess_outside {s : State} {addr : Nat}
    (h : addr < s.params.regBase ∨ s.params.regBase + 64 ≤ addr) (bytes : Nat) (k : WindowReg → State) :
    windowAccess s addr bytes k = .fault .outsideWindow := if_pos h

/-- Inside the window the width is checked before the alignment (log 7). -/
theorem windowAccess_inside (s : State) {off : Nat} (hoff : off < 64) (bytes : Nat) (k : WindowReg → State) :
    windowAccess s (s.params.regBase + off) bytes k =
      if bytes ≠ 8 then .refused .accessWidth
      else if off % 8 ≠ 0 then .refused .accessAlignment
      else .next (k (windowReg off)) := by
  have hin : ¬(s.params.regBase + off < s.params.regBase ∨
      s.params.regBase + windowBytes ≤ s.params.regBase + off) := by
    unfold windowBytes
    omega
  rw [windowAccess, if_neg hin, Nat.add_sub_cancel_left]

/-- Settles O17. -/
theorem onlyAlignedWordAccessesHaveMeaning : Obligations.OnlyAlignedWordAccessesHaveMeaning := by
  intro s off bytes v rest hoff hs
  obtain ⟨k, hk⟩ := step_hostAccess hs
  rw [hk, windowAccess_inside { s with schedule := rest } hoff]
  refine ⟨fun hb => if_pos hb, fun hb hal => ?_, fun hb hal => ⟨k (windowReg off), ?_⟩⟩
  · rw [if_neg (not_not.2 hb), if_pos hal]
  · rw [if_neg (not_not.2 hb), if_neg (not_not.2 hal)]

/-- Settles O18. -/
theorem foreignAccessesStop : Obligations.ForeignAccessesStop := by
  intro s addr bytes v rest
  refine ⟨fun hout hs => ?_, fun hs => step_of_schedule hs⟩
  obtain ⟨k, hk⟩ := step_hostAccess hs
  rw [hk]
  exact windowAccess_outside hout bytes k

/-- Settles O16: the reserved offsets are those of R24, and a read leaves what `hostReadReg` leaves. -/
theorem readsHaveNoSideEffect : Obligations.ReadsHaveNoSideEffect := by
  refine ⟨fun s v => ?_, fun s off rest hoff hal hs => ?_⟩
  · obtain ⟨hread30, hread38, hwrite30, hwrite38⟩ := reservedBitsAndOffsetsReadZero.2 s v
    exact ⟨writeLeaves (by decide) rfl fun _ => rfl, writeLeaves (by decide) rfl fun _ => rfl,
      hwrite30, hwrite38, hread30, hread38⟩
  · exact ⟨_, _, (step_hostRead hoff hal hs).trans (congrArg _ (hostReadReg_withSchedule s rest _))⟩

/-! ## The issue of a command (20_memory.md R61, R66) -/

/-- A ready block issues the command: the operands are latched with the word (30_encoding.md R74). -/
theorem hostWriteCmd_of_ready {s : State} (h : s.Ready) (v : Word) :
    hostWriteCmd s v = { s with
      cmd := v
      latch := { word := v, a0 := s.arg0, a1 := s.arg1, a2 := s.arg2 }
      status := s.status.issue } := by
  obtain ⟨hfault, hbusy⟩ := h
  simp [hostWriteCmd, hfault, hbusy]

/-- The engine's turn runs the pending command (30_encoding.md R75). -/
theorem engineTurn_of_decode {s : State} {i : Instr} (hb : s.status.busy = true)
    (hd : decode s.latch.word = .ok i) : engineTurn s = exec i s := by
  rw [engineTurn, if_pos hb, engineStep, hd]

theorem step_engine_of_decode {s : State} {i : Instr} {rest : List Event} (hs : s.schedule = .engine :: rest)
    (hb : s.status.busy = true) (hd : decode s.latch.word = .ok i) : step s = exec i { s with schedule := rest } := by
  rw [step_of_schedule hs]
  exact engineTurn_of_decode (s := { s with schedule := rest }) hb hd

/-- Settles O19: the state the write leaves has the operands in the latch, and the engine's turn runs from there. -/
theorem issuedCommandRunsOnTheLatchedOperands : Obligations.IssuedCommandRunsOnTheLatchedOperands := by
  intro s v i rest hready hd hs
  have hissue : step s = .next (hostWriteCmd { s with schedule := .engine :: rest } v) :=
    step_hostWrite (off := 0) (by decide) rfl hs
  rw [hostWriteCmd_of_ready (s := { s with schedule := .engine :: rest }) hready] at hissue
  exact ⟨_, hissue, rfl, ⟨rfl, rfl, rfl, rfl⟩, step_engine_of_decode rfl rfl hd⟩

/-! ## A command writes its own unit alone (20_memory.md R57) -/

/-- From `s` to `t` the command `i` has written no unit but its own. -/
def WritesOwnUnit (i : Instr) (s t : State) : Prop :=
  (writesBf i = false → t.bf = s.bf) ∧ (i ≠ .bfSetLen → t.bfLen = s.bfLen) ∧
    (∀ j, writesSlot i ≠ some j → t.slotAt j = s.slotAt j) ∧ t.slots.length = s.slots.length

theorem writesOwnUnit_refl (i : Instr) (s : State) : WritesOwnUnit i s s :=
  ⟨fun _ => rfl, fun _ => rfl, fun _ _ => rfl, rfl⟩

theorem writesOwnUnit_bf {i : Instr} (hi : writesBf i = true) (s : State) (m : Memory) :
    WritesOwnUnit i s { s with bf := m } :=
  ⟨fun hn => (nomatch hi.symm.trans hn), fun _ => rfl, fun _ _ => rfl, rfl⟩

theorem writesOwnUnit_bfLen (s : State) (n : Nat) : WritesOwnUnit .bfSetLen s { s with bfLen := n } :=
  ⟨fun _ => rfl, fun hn => absurd rfl hn, fun _ _ => rfl, rfl⟩

theorem writesOwnUnit_setSlot {i : Instr} {a : Nat} (hi : writesSlot i = some a) (s : State) (sl : Slot) :
    WritesOwnUnit i s (s.setSlot a sl) :=
  ⟨fun _ => rfl, fun _ => rfl, fun _ hj => slotAt_setSlot_other s (fun ha => hj (hi.trans (congrArg some ha))) sl,
    List.length_set⟩

/-- Settles O27, by what a command's outcome can be. Its completion writes `RESULT` and `STATUS` and no unit. -/
theorem commandsWriteOnlyTheirUnit : Obligations.CommandsWriteOnlyTheirUnit := by
  intro i s
  refine ⟨_, exec_eq i s, ?_⟩
  change WritesOwnUnit i s (complete s (commandOf i s))
  generalize ho : commandOf i s = o
  have heff : CommandEffect s i o := ho ▸ commandOf_effect i s
  cases heff with
  | faulted | failed | returned => exact writesOwnUnit_refl i s
  | lengthSet => exact writesOwnUnit_bfLen s _
  | byteWritten => exact writesOwnUnit_bf rfl s _
  | bitsWritten hi => exact writesOwnUnit_bf (by rcases hi with rfl | rfl <;> rfl) s _
  | constructed | released | digitSet | added => exact writesOwnUnit_setSlot rfl s _

/-! ## What a command's outcome rests on (20_memory.md R62) -/

/-- `u` with all that a command reads taken from `s`: the parameters, the latch, `BF`, `BF_LEN` and the slots. -/
def withInputsOf (u s : State) : State :=
  { u with params := s.params, latch := s.latch, bf := s.bf, bfLen := s.bfLen, slots := s.slots }

theorem withInputsOf_params (u s : State) : (withInputsOf u s).params = s.params := rfl

/-- An outcome on `s` carried to `withInputsOf u s`: the fields no command reads are those of `u`. -/
def outcomeOn (u : State) : CmdOutcome → CmdOutcome
  | .ok t => .ok (withInputsOf u t)
  | .okValue t v => .okValue (withInputsOf u t) v
  | .error e => .error e
  | .fault c => .fault c

theorem withInputsOf_eq_self {u s : State} (hparams : u.params = s.params) (hlatch : u.latch = s.latch)
    (hbf : u.bf = s.bf) (hlen : u.bfLen = s.bfLen) (hslots : u.slots = s.slots) : withInputsOf u s = u := by
  rw [withInputsOf, ← hparams, ← hlatch, ← hbf, ← hlen, ← hslots]

/-- A check that is the same on both blocks: it is enough that each branch is carried over. -/
theorem ite_eq_outcomeOn {u : State} {c : Prop} [Decidable c] {j j' k k' : CmdOutcome} (hj : j' = outcomeOn u j)
    (hk : k' = outcomeOn u k) : (if c then j' else k') = outcomeOn u (if c then j else k) := by
  rw [hj, hk, apply_ite (outcomeOn u)]

theorem needSlot_withInputsOf {u s : State} (a : Nat) {k k' : CmdOutcome} (hk : k' = outcomeOn u k) :
    needSlot (withInputsOf u s) a k' = outcomeOn u (needSlot s a k) :=
  ite_eq_outcomeOn rfl hk

theorem needState_withInputsOf {u s : State} (a : Nat) (want : SlotState) {k k' : Slot → CmdOutcome}
    (hk : k' (s.slotAt a) = outcomeOn u (k (s.slotAt a))) :
    needState (withInputsOf u s) a want k' = outcomeOn u (needState s a want k) :=
  ite_eq_outcomeOn hk rfl

theorem slotOperand_withInputsOf {u s : State} (a : Nat) (want : SlotState) {k k' : Slot → CmdOutcome}
    (hk : k' (s.slotAt a) = outcomeOn u (k (s.slotAt a))) :
    slotOperand (withInputsOf u s) a want k' = outcomeOn u (slotOperand s a want k) :=
  needSlot_withInputsOf a (needState_withInputsOf a want hk)

theorem returnRead_withInputsOf (u s : State) (r : Except FaultCause Nat) :
    returnRead (withInputsOf u s) r = outcomeOn u (returnRead s r) := by cases r <;> rfl

theorem storeBf_withInputsOf (u s : State) (r : Except FaultCause Memory) :
    storeBf (withInputsOf u s) r = outcomeOn u (storeBf s r) := by cases r <;> rfl

theorem addAssign_withInputsOf (u s : State) (a b : Nat) :
    addAssign a b (withInputsOf u s) = outcomeOn u (addAssign a b s) := by
  refine needSlot_withInputsOf a (needSlot_withInputsOf b
    (needState_withInputsOf a .live (needState_withInputsOf b .live ?_)))
  refine ite_eq_outcomeOn rfl ?_
  rw [withInputsOf_params]
  cases addSlots s.params.maxCapacityBytes (s.slotAt a) (s.slotAt b) <;> rfl

/-- A command reads nothing but the parameters, the latch and the units: with every other field changed, its outcome is
the same. -/
theorem commandOf_withInputsOf (i : Instr) (u s : State) :
    commandOf i (withInputsOf u s) = outcomeOn u (commandOf i s) := by
  cases i with
  | bfSetLen => exact ite_eq_outcomeOn rfl rfl
  | bfGetLen => rfl
  | bfWriteByte => exact ite_eq_outcomeOn rfl (ite_eq_outcomeOn rfl rfl)
  | bfReadByte => exact ite_eq_outcomeOn rfl rfl
  | bfGetBits => exact returnRead_withInputsOf u s _
  | bfSetBits => exact storeBf_withInputsOf u s _
  | bfGetSpan => exact returnRead_withInputsOf u s _
  | bfSetSpan => exact storeBf_withInputsOf u s _
  | construct a => exact slotOperand_withInputsOf a .free (ite_eq_outcomeOn rfl (ite_eq_outcomeOn rfl rfl))
  | release a => exact slotOperand_withInputsOf a .live rfl
  | digitAt a => exact slotOperand_withInputsOf a .live (ite_eq_outcomeOn rfl rfl)
  | setDigitAt a => exact slotOperand_withInputsOf a .live (ite_eq_outcomeOn rfl (ite_eq_outcomeOn rfl rfl))
  | getBase a => exact slotOperand_withInputsOf a .live rfl
  | getBpd a => exact slotOperand_withInputsOf a .live rfl
  | getDigitCount a => exact slotOperand_withInputsOf a .live rfl
  | getCapacity a => exact slotOperand_withInputsOf a .live rfl
  | addAssign a b => exact addAssign_withInputsOf u s a b

/-- The ends of one command on two blocks show the same: the units, `STATUS` where it was the same, and `RESULT` kept by
both or the same in both. -/
def EndsAlike (s s' u u' : State) : Prop :=
  (u'.bf = s'.bf ∧ u'.bfLen = s'.bfLen ∧ u'.slots = s'.slots) ∧ (u.status = s.status → u'.status = s'.status) ∧
    ((u'.result = u.result ∧ s'.result = s.result) ∨ u'.result = s'.result)

/-- An outcome and the same outcome carried to another block complete alike. -/
theorem complete_endsAlike {s u : State} {o : CmdOutcome} (h : OutcomeBounded s o)
    (hbf : u.bf = s.bf) (hlen : u.bfLen = s.bfLen) (hslots : u.slots = s.slots) :
    EndsAlike s (complete s o) u (complete u (outcomeOn u o)) := by
  cases o with
  | ok t =>
    have ht : t = { s with bf := t.bf, bfLen := t.bfLen, slots := t.slots } := h
    have hstatus : t.status = s.status := by rw [ht]
    have hresult : t.result = s.result := by rw [ht]
    exact ⟨⟨rfl, rfl, rfl⟩, fun hu => congrArg Status.completeOk (hu.trans hstatus.symm), .inl ⟨rfl, hresult⟩⟩
  | okValue t v =>
    obtain rfl : t = s := h
    exact ⟨⟨rfl, rfl, rfl⟩, congrArg Status.completeOk, .inr rfl⟩
  | error e => exact ⟨⟨hbf, hlen, hslots⟩, congrArg (Status.completeError · e), .inl ⟨rfl, rfl⟩⟩
  | fault c => exact ⟨⟨hbf, hlen, hslots⟩, congrArg (Status.enterFault · c), .inl ⟨rfl, rfl⟩⟩

/-- Settles O31: the outcome on `u` is the outcome on `s`, carried over. -/
theorem outcomeDependsOnLatchAndUnitsAlone : Obligations.OutcomeDependsOnLatchAndUnitsAlone := by
  intro i s u hparams hlatch hbf hlen hslots
  have hcarry : commandOf i u = outcomeOn u (commandOf i s) := by
    rw [← commandOf_withInputsOf, withInputsOf_eq_self hparams hlatch hbf hlen hslots]
  refine ⟨_, _, exec_eq i s, exec_eq i u, ?_⟩
  rw [hcarry]
  exact complete_endsAlike (commandOf_bounded i s) hbf hlen hslots

/-! ## A buffer as a big-endian number (20_memory.md R50, R51) -/

/-- The last byte of a buffer holds its bits 0 to 7. -/
theorem bitAt_last_byte (m : Memory) (n : Nat) {k : Nat} (hk : k < 8) :
    bitAt m (n + 1) k = (m.read n).getLsbD k := by
  have hbyte : byteOfBit (n + 1) k = n := by unfold byteOfBit; omega
  rw [bitAt, hbyte, Nat.mod_eq_of_lt hk]

/-- The bits from 8 up are those of the buffer without its last byte. -/
theorem bitAt_front_bytes (m : Memory) {n k : Nat} (hk : 8 ≤ k) : bitAt m (n + 1) k = bitAt m n (k - 8) := by
  have hbyte : byteOfBit (n + 1) k = byteOfBit n (k - 8) := by unfold byteOfBit; omega
  have hbit : k % 8 = (k - 8) % 8 := by omega
  rw [bitAt, bitAt, hbyte, hbit]

/-- Bit `k` of the buffer is bit `k` of its big-endian number (20_memory.md R51). -/
theorem bitAt_eq_testBit_bufferNumber (m : Memory) (len : Nat) {k : Nat} (hk : k < 8 * len) :
    bitAt m len k = (bufferNumber m len).testBit k := by
  induction len generalizing k with
  | zero => omega
  | succ n ih =>
    rw [bufferNumber, Nat.mul_comm, Nat.testBit_two_pow_mul_add _ (m.read n).isLt]
    split
    · next hlow => exact bitAt_last_byte m n hlow
    · next hlow =>
      rw [bitAt_front_bytes m (by omega)]
      exact ih (by omega)

/-- The bits of a range inside the buffer are a slice of its number. -/
theorem bitsValue_eq_slice (m : Memory) {len start w : Nat} (hw : start + w ≤ 8 * len) :
    bitsValue m len start w = bufferNumber m len / 2 ^ start % 2 ^ w := by
  apply Nat.eq_of_testBit_eq
  intro j
  rw [testBit_bitsValue, Nat.testBit_mod_two_pow, Nat.testBit_div_two_pow]
  by_cases hj : j < w
  · rw [bitAt_eq_testBit_bufferNumber m len (by omega), Nat.add_comm]
  · simp [hj]

theorem getBits_of_valid (m : Memory) {len start stop : Nat} (h : RangeValid len start stop) :
    getBits m len start stop = .ok (bitsValue m len start (stop - start)) := if_pos h

/-- Settles O44. -/
theorem getBitsSlicesTheBigEndianNumber : Obligations.GetBitsSlicesTheBigEndianNumber := by
  refine fun m len => ⟨fun k hk => bitAt_eq_testBit_bufferNumber m len hk, fun start stop hvalid => ?_⟩
  have ⟨hlt, _, hle⟩ := hvalid
  rw [getBits_of_valid m hvalid, bitsValue_eq_slice m (by omega)]

/-! ## A written byte in the bit view (20_memory.md R53) -/

/-- The bits `[8·(L − 1 − i), 8·(L − i))` of the view of length `L` are byte `i`. -/
theorem bitsValue_byte (m : Memory) {len i : Nat} (hi : i < len) :
    bitsValue m len (8 * (len - 1 - i)) 8 = (m.read i).toNat := by
  apply Nat.eq_of_testBit_eq
  intro j
  rw [testBit_bitsValue, BitVec.testBit_toNat]
  by_cases hj : j < 8
  · have hbyte : byteOfBit len (8 * (len - 1 - i) + j) = i := by unfold byteOfBit; omega
    have hbit : (8 * (len - 1 - i) + j) % 8 = j := by omega
    rw [bitAt, hbyte, hbit, decide_eq_true hj, Bool.true_and]
  · rw [BitVec.getLsbD_of_ge _ _ (by omega), decide_eq_false hj, Bool.false_and]

/-- A byte at or above `len` holds no bit of the view of length `len`. -/
theorem bitAt_write_of_le {m : Memory} (hm : m.wf) {len i k : Nat} (hi : len ≤ i) (v : Byte) (hk : k < 8 * len) :
    bitAt (m.write i v) len k = bitAt m len k := by
  have hne : i ≠ byteOfBit len k := by have := byteOfBit_lt hk; omega
  rw [bitAt, bitAt, read_write hm, if_neg hne]

/-- `GetBits` sees a buffer through the bits of its view alone. -/
theorem getBits_congr {m n : Memory} {len : Nat} (h : ∀ k, k < 8 * len → bitAt m len k = bitAt n len k)
    (start stop : Nat) : getBits m len start stop = getBits n len start stop := by
  by_cases hvalid : RangeValid len start stop
  · have ⟨hlt, _, hle⟩ := hvalid
    rw [getBits_of_valid m hvalid, getBits_of_valid n hvalid, bitsValue_congr fun j _ => h (start + j) (by omega)]
  · rw [getBits, getBits, if_neg hvalid, if_neg hvalid]

/-- Settles O48. -/
theorem writtenBytesShowInTheBitView : Obligations.WrittenBytesShowInTheBitView := by
  intro m len i v hm
  refine ⟨fun hi => ?_, fun hi => getBits_congr fun k => bitAt_write_of_le hm hi v⟩
  have hwidth : 8 * (len - i) - 8 * (len - 1 - i) = 8 := by omega
  have hvalid : RangeValid len (8 * (len - 1 - i)) (8 * (len - i)) := by
    refine ⟨?_, ?_, ?_⟩
    · omega
    · rw [hwidth]; decide
    · omega
  rw [getBits_of_valid _ hvalid, hwidth, bitsValue_byte _ hi, read_write hm, if_pos rfl]

end Sys2Proof.MemoryProofs
end

section
/-! PROOFS. The statements of 30_encoding.md: the fields of a word and the command they name, the decoder against the
encoder and against the opcode table, the engine's turn and the `CMD` write, and the operands a command looks at. -/

namespace Sys2Proof.EncodingProofs

open Sys2Proof.Machine Sys2Proof.Laws Sys2Proof.Claims Sys2Proof.StateProofs Sys2Proof.MemoryProofs

/-! ## The fields of a word (30_encoding.md R71, R72) -/

theorem fieldA_lt (v : Word) : fieldA v < 256 := Nat.mod_lt _ (by decide)

theorem fieldB_lt (v : Word) : fieldB v < 256 := Nat.mod_lt _ (by decide)

/-- The five fields cover all 64 bits. -/
theorem toNat_eq_fields (v : Word) :
    v.toNat = fieldOp v + fieldA v * 2 ^ 8 + fieldB v * 2 ^ 16 + fieldRsv v * 2 ^ 24 + fieldHigh v * 2 ^ 32 := by
  have hv := v.isLt
  simp only [fieldOp, fieldA, fieldB, fieldRsv, fieldHigh, bitSlice]
  omega

theorem packFields_toNat {op a b : Nat} (hop : op < 256) (ha : a < 256) (hb : b < 256) :
    (packFields op a b).toNat = op + a * 2 ^ 8 + b * 2 ^ 16 :=
  Nat.mod_eq_of_lt (by omega)

/-- A word is packed from `OP`, `A` and `B` exactly where these are its fields and every other bit is 0. -/
theorem eq_packFields_iff {op a b : Nat} (hop : op < 256) (ha : a < 256) (hb : b < 256) (v : Word) :
    v = packFields op a b ↔
      fieldHigh v = 0 ∧ fieldRsv v = 0 ∧ fieldOp v = op ∧ fieldA v = a ∧ fieldB v = b := by
  constructor
  · rintro rfl
    simp only [fieldOp, fieldA, fieldB, fieldRsv, fieldHigh, bitSlice, packFields_toNat hop ha hb]
    omega
  · rintro ⟨hhigh, hrsv, rfl, rfl, rfl⟩
    apply BitVec.eq_of_toNat_eq
    rw [packFields_toNat hop ha hb, toNat_eq_fields v, hhigh, hrsv]
    omega

/-! ## The fields of a command (30_encoding.md R73, R78) -/

/-- The field `OP` of a command's word. -/
def opcode : Instr → Nat
  | .bfSetLen => 0x01
  | .bfGetLen => 0x02
  | .bfWriteByte => 0x03
  | .bfReadByte => 0x04
  | .bfGetBits => 0x05
  | .bfSetBits => 0x06
  | .bfGetSpan => 0x07
  | .bfSetSpan => 0x08
  | .construct _ => 0x10
  | .release _ => 0x11
  | .digitAt _ => 0x12
  | .setDigitAt _ => 0x13
  | .getBase _ => 0x14
  | .getBpd _ => 0x15
  | .getDigitCount _ => 0x16
  | .getCapacity _ => 0x17
  | .addAssign _ _ => 0x20

/-- A command's format, by the number of its slot operands. -/
def formatOf (i : Instr) : Format :=
  match slotOperands i with
  | [] => .n
  | [_] => .s
  | _ => .ss

/-- The field `A` of a command's word: its first slot operand, or 0. -/
def slotA (i : Instr) : Nat := (slotOperands i).getD 0 0

/-- The field `B` of a command's word: its second slot operand, or 0. -/
def slotB (i : Instr) : Nat := (slotOperands i).getD 1 0

theorem opcode_lt (i : Instr) : opcode i < 256 := by cases i <;> simp [opcode]

theorem encode_eq (i : Instr) : encode i = packFields (opcode i) (slotA i) (slotB i) := by cases i <;> rfl

theorem opFormat_opcode (i : Instr) : opFormat (opcode i) = some (formatOf i) := by cases i <;> rfl

theorem opInstr_opcode (i : Instr) : opInstr (opcode i) (slotA i) (slotB i) = some i := by cases i <;> rfl

/-- A command has a word iff its slot operands fit their fields. -/
theorem wellFormed_iff (i : Instr) : i.WellFormed ↔ slotA i < 256 ∧ slotB i < 256 := by
  cases i <;> simp [Instr.WellFormed, Instr.wellFormed, slotA, slotB, slotOperands]

/-- The opcode map names the command of that opcode, with `A` and `B` where its format uses them. -/
theorem of_opInstr {op a b : Nat} {i : Instr} (h : opInstr op a b = some i) :
    op = opcode i ∧ slotA i = (if formatOf i = .n then 0 else a) ∧ slotB i = (if formatOf i = .ss then b else 0) := by
  unfold opInstr at h
  split at h <;> cases h <;> exact ⟨rfl, rfl, rfl⟩

/-- Every opcode with a format names a command. -/
theorem exists_opInstr {op : Nat} {f : Format} (h : opFormat op = some f) (a b : Nat) :
    ∃ i, opInstr op a b = some i := by
  unfold opFormat at h
  split at h <;> cases h <;> exact ⟨_, rfl⟩

theorem unusedFieldsZero_iff (f : Format) (v : Word) :
    unusedFieldsZero f v = true ↔
      fieldA v = (if f = .n then 0 else fieldA v) ∧ fieldB v = (if f = .ss then fieldB v else 0) := by
  cases f <;> simp [unusedFieldsZero]

/-! ## The decoder (30_encoding.md R76) -/

/-- The decoder's checks, all passed. -/
theorem decode_eq_ok_iff_checks (v : Word) (i : Instr) :
    decode v = .ok i ↔ fieldHigh v = 0 ∧ fieldRsv v = 0 ∧
      (∃ f, opFormat (fieldOp v) = some f ∧ unusedFieldsZero f v = true) ∧
      opInstr (fieldOp v) (fieldA v) (fieldB v) = some i := by
  unfold decode
  by_cases hhigh : fieldHigh v = 0
  · rw [if_neg (not_not.2 hhigh)]
    split
    · next f i' hf hi' =>
      simp only [hhigh, hf, hi', Option.some.injEq, exists_eq_left', true_and]
      split_ifs <;> simp_all
    · next hnone =>
      exact ⟨nofun, fun ⟨_, _, ⟨f, hf, _⟩, hi⟩ => (hnone f i hf hi).elim⟩
  · rw [if_pos hhigh]
    exact ⟨nofun, fun h => absurd h.1 hhigh⟩

/-- A word decodes to the command whose fields are the word's own, with every other bit 0. -/
theorem decode_eq_ok_iff (v : Word) (i : Instr) :
    decode v = .ok i ↔
      fieldHigh v = 0 ∧ fieldRsv v = 0 ∧ fieldOp v = opcode i ∧ fieldA v = slotA i ∧ fieldB v = slotB i := by
  rw [decode_eq_ok_iff_checks]
  constructor
  · rintro ⟨hhigh, hrsv, ⟨f, hf, hunused⟩, hi⟩
    obtain ⟨hop, ha, hb⟩ := of_opInstr hi
    obtain rfl : f = formatOf i := by simpa [hop, opFormat_opcode] using hf.symm
    obtain ⟨hunusedA, hunusedB⟩ := (unusedFieldsZero_iff _ v).1 hunused
    exact ⟨hhigh, hrsv, hop, hunusedA.trans ha.symm, hunusedB.trans hb.symm⟩
  · rintro ⟨hhigh, hrsv, hop, ha, hb⟩
    have hi : opInstr (fieldOp v) (fieldA v) (fieldB v) = some i := by rw [hop, ha, hb, opInstr_opcode]
    obtain ⟨-, ha', hb'⟩ := of_opInstr hi
    exact ⟨hhigh, hrsv, ⟨formatOf i, hop ▸ opFormat_opcode i,
      (unusedFieldsZero_iff _ v).2 ⟨ha.trans ha', hb.trans hb'⟩⟩, hi⟩

/-- The decoder is the converse of the encoder. -/
theorem decode_eq_ok_iff_encode (v : Word) (i : Instr) : decode v = .ok i ↔ i.WellFormed ∧ v = encode i := by
  rw [decode_eq_ok_iff, wellFormed_iff, encode_eq]
  constructor
  · rintro ⟨hhigh, hrsv, hop, ha, hb⟩
    have hltA : slotA i < 256 := ha ▸ fieldA_lt v
    have hltB : slotB i < 256 := hb ▸ fieldB_lt v
    exact ⟨⟨hltA, hltB⟩, (eq_packFields_iff (opcode_lt i) hltA hltB v).2 ⟨hhigh, hrsv, hop, ha, hb⟩⟩
  · rintro ⟨⟨hltA, hltB⟩, hv⟩
    exact (eq_packFields_iff (opcode_lt i) hltA hltB v).1 hv

/-- Settles O1. -/
theorem decodeOfEncodeIsTheCommand : Obligations.DecodeOfEncodeIsTheCommand := fun i hi =>
  (decode_eq_ok_iff_encode _ i).2 ⟨hi, rfl⟩

/-- Settles O2. -/
theorem decodedWordIsTheCommandsWord : Obligations.DecodedWordIsTheCommandsWord := by
  intro v i hd
  obtain ⟨hi, hv⟩ := (decode_eq_ok_iff_encode v i).1 hd
  exact ⟨hi, hv.symm⟩

/-! ## The legal commands (30_encoding.md R76, R79) -/

/-- The opcodes of a format (30_encoding.md R78). -/
def opcodesOf : Format → List Nat
  | .n => [0x01, 0x02, 0x03, 0x04, 0x05, 0x06, 0x07, 0x08]
  | .s => [0x10, 0x11, 0x12, 0x13, 0x14, 0x15, 0x16, 0x17]
  | .ss => [0x20]

theorem opFormat_eq_some_iff (op : Nat) (f : Format) : opFormat op = some f ↔ op ∈ opcodesOf f := by
  constructor
  · intro h
    unfold opFormat at h
    split at h <;> cases h <;> decide
  · have hall : ∀ op ∈ opcodesOf f, opFormat op = some f := by cases f <;> decide
    exact hall op

theorem exists_format {p : Format → Prop} : (∃ f, p f) ↔ p .n ∨ p .s ∨ p .ss := by
  constructor
  · rintro ⟨f, hf⟩
    cases f with
    | n => exact .inl hf
    | s => exact .inr (.inl hf)
    | ss => exact .inr (.inr hf)
  · rintro (h | h | h) <;> exact ⟨_, h⟩

/-- A legal command passes the decoder's checks. -/
theorem legalCommand_iff_checks (v : Word) :
    LegalCommand v ↔ fieldHigh v = 0 ∧ fieldRsv v = 0 ∧
      ∃ f, opFormat (fieldOp v) = some f ∧ unusedFieldsZero f v = true := by
  simp [LegalCommand, exists_format, opFormat_eq_some_iff, opcodesOf, unusedFieldsZero]

theorem decodes_iff_legalCommand (v : Word) : (∃ i, decode v = .ok i) ↔ LegalCommand v := by
  rw [legalCommand_iff_checks]
  constructor
  · rintro ⟨i, hd⟩
    obtain ⟨hhigh, hrsv, hchecks, -⟩ := (decode_eq_ok_iff_checks v i).1 hd
    exact ⟨hhigh, hrsv, hchecks⟩
  · rintro ⟨hhigh, hrsv, f, hf, hunused⟩
    obtain ⟨i, hi⟩ := exists_opInstr hf (fieldA v) (fieldB v)
    exact ⟨i, (decode_eq_ok_iff_checks v i).2 ⟨hhigh, hrsv, ⟨f, hf, hunused⟩, hi⟩⟩

/-- A pending illegal command takes the fault entry (60_exceptions.md R139). -/
theorem engineTurn_of_illegal {s : State} (hb : s.status.busy = true) (hl : ¬LegalCommand s.latch.word) :
    engineTurn s = .next (s.afterFault .illegalCommand) := by
  rw [engineTurn, if_pos hb, engineStep]
  cases hd : decode s.latch.word with
  | ok i => exact absurd ((decodes_iff_legalCommand _).1 ⟨i, hd⟩) hl
  | error e => rfl

theorem step_engine_of_illegal {s : State} {rest : List Event} (hs : s.schedule = .engine :: rest)
    (hb : s.status.busy = true) (hl : ¬LegalCommand s.latch.word) :
    step s = .next (State.afterFault { s with schedule := rest } .illegalCommand) := by
  rw [step_of_schedule hs]
  exact engineTurn_of_illegal (s := { s with schedule := rest }) hb hl

/-- Settles O3. -/
theorem exactlyLegalCommandsDecode : Obligations.ExactlyLegalCommandsDecode :=
  ⟨decodes_iff_legalCommand, fun _ _ hb hl hs => step_engine_of_illegal hs hb hl⟩

/-- Settles O5: none of these opcodes is a legal command's. -/
theorem otherOpcodesAreIllegal : Obligations.OtherOpcodesAreIllegal := by
  intro s rest hb hs hop
  refine step_engine_of_illegal hs hb fun hl => ?_
  obtain ⟨-, -, hfields⟩ := hl
  simp only [List.mem_cons, List.not_mem_nil, or_false] at hfields
  omega

/-- Settles O6: the nine words of R87 are the encoder's, and the five values are evaluated. -/
theorem workedEncodingsDecode : Obligations.WorkedEncodingsDecode :=
  have hword := decodeOfEncodeIsTheCommand
  ⟨hword .bfSetLen rfl, hword .bfGetBits rfl, hword .bfSetSpan rfl, hword (.construct 0) rfl, hword (.construct 1) rfl,
    hword (.digitAt 3) rfl, hword (.getDigitCount 0) rfl, hword (.addAssign 0 1) rfl, hword (.addAssign 2 2) rfl,
    rfl, rfl, rfl, rfl, rfl⟩

/-! ## The opcode table (spec/opcode_table.json) -/

/-- The number of low bits of a format's fields (30_encoding.md R73). -/
def formatBits : Format → Nat
  | .n => 8
  | .s => 16
  | .ss => 24

/-- The mask of a format's rows: all bits but those of the slot fields it uses. -/
def rowMask : Format → Word
  | .n => 0xFFFFFFFFFFFFFFFF
  | .s => 0xFFFFFFFFFFFF00FF
  | .ss => 0xFFFFFFFFFF0000FF

theorem tableRow_eq (i : Instr) : tableRow i = (BitVec.ofNat 64 (opcode i), rowMask (formatOf i)) := by cases i <;> rfl

theorem rowMask_low (f : Format) : (rowMask f).toNat % 2 ^ 8 = 2 ^ 8 - 1 := by cases f <;> rfl

theorem rowMask_high (f : Format) : (rowMask f).toNat / 2 ^ formatBits f = 2 ^ (64 - formatBits f) - 1 := by
  cases f <;> rfl

/-- A value that selects a row has the row's opcode, and every bit outside the format's fields is 0. -/
theorem of_selects_row {v : Word} {i : Instr} (h : v &&& (tableRow i).2 = (tableRow i).1) :
    fieldOp v = opcode i ∧ v.toNat < 2 ^ formatBits (formatOf i) := by
  rw [tableRow_eq] at h
  have hop := opcode_lt i
  have hnat : v.toNat &&& (rowMask (formatOf i)).toNat = opcode i := by
    rw [← BitVec.toNat_and, h, BitVec.toNat_ofNat, Nat.mod_eq_of_lt (by omega)]
  generalize formatOf i = f at hnat ⊢
  have hlow : v.toNat % 2 ^ 8 = opcode i % 2 ^ 8 := by
    rw [← hnat, Nat.and_mod_two_pow, rowMask_low, Nat.and_two_pow_sub_one_eq_mod, Nat.mod_mod]
  have hhigh : v.toNat / 2 ^ formatBits f % 2 ^ (64 - formatBits f) = opcode i / 2 ^ formatBits f := by
    rw [← hnat, Nat.and_div_two_pow, rowMask_high, Nat.and_two_pow_sub_one_eq_mod]
  have hv := v.isLt
  simp only [fieldOp, bitSlice]
  cases f <;> simp only [formatBits] at hhigh ⊢ <;> omega

/-- The bits outside a format's fields are those the decoder wants 0. -/
theorem checks_of_lt {v : Word} {f : Format} (h : v.toNat < 2 ^ formatBits f) :
    fieldHigh v = 0 ∧ fieldRsv v = 0 ∧ unusedFieldsZero f v = true := by
  rw [toNat_eq_fields v] at h
  rw [unusedFieldsZero_iff]
  cases f <;> simp [formatBits] at h ⊢ <;> omega

/-- The encoder's words select their own rows, all seventeen of them. -/
theorem encode_selects_row (i : Instr) : EncodedWordSelectsRow.Statement i := by
  cases i with
  | bfSetLen => exact EncodedWordSelectsRow.bfSetLen
  | bfGetLen => exact EncodedWordSelectsRow.bfGetLen
  | bfWriteByte => exact EncodedWordSelectsRow.bfWriteByte
  | bfReadByte => exact EncodedWordSelectsRow.bfReadByte
  | bfGetBits => exact EncodedWordSelectsRow.bfGetBits
  | bfSetBits => exact EncodedWordSelectsRow.bfSetBits
  | bfGetSpan => exact EncodedWordSelectsRow.bfGetSpan
  | bfSetSpan => exact EncodedWordSelectsRow.bfSetSpan
  | construct a => exact EncodedWordSelectsRow.construct a
  | release a => exact EncodedWordSelectsRow.release a
  | digitAt a => exact EncodedWordSelectsRow.digitAt a
  | setDigitAt a => exact EncodedWordSelectsRow.setDigitAt a
  | getBase a => exact EncodedWordSelectsRow.getBase a
  | getBpd a => exact EncodedWordSelectsRow.getBpd a
  | getDigitCount a => exact EncodedWordSelectsRow.getDigitCount a
  | getCapacity a => exact EncodedWordSelectsRow.getCapacity a
  | addAssign a b => exact EncodedWordSelectsRow.addAssign a b

theorem selects_row_of_decode {v : Word} {i : Instr} (hd : decode v = .ok i) :
    v &&& (tableRow i).2 = (tableRow i).1 := by
  obtain ⟨hi, rfl⟩ := (decode_eq_ok_iff_encode v i).1 hd
  exact encode_selects_row i hi

theorem legalCommand_of_selects_row {v : Word} {i : Instr} (h : v &&& (tableRow i).2 = (tableRow i).1) :
    LegalCommand v := by
  obtain ⟨hop, hlt⟩ := of_selects_row h
  obtain ⟨hhigh, hrsv, hunused⟩ := checks_of_lt hlt
  exact (legalCommand_iff_checks v).2 ⟨hhigh, hrsv, formatOf i, hop ▸ opFormat_opcode i, hunused⟩

/-- Settles O4. -/
theorem decodeFollowsTheOpcodeTable : Obligations.DecodeFollowsTheOpcodeTable := by
  refine ⟨fun v => ⟨fun ⟨i, hd⟩ => ⟨i, selects_row_of_decode hd⟩, fun ⟨i, h⟩ => ?_⟩, fun v i => selects_row_of_decode⟩
  exact (decodes_iff_legalCommand v).2 (legalCommand_of_selects_row h)

/-! ## Operands a command's row leaves blank (30_encoding.md R80) -/

/-- `s` with the latch replaced. -/
def withLatch (l : Latch) (s : State) : State := { s with latch := l }

theorem withLatch_params (l : Latch) (s : State) : (withLatch l s).params = s.params := rfl

/-- An outcome with the latch of its state replaced. -/
def outcomeWithLatch (l : Latch) : CmdOutcome → CmdOutcome
  | .ok t => .ok (withLatch l t)
  | .okValue t v => .okValue (withLatch l t) v
  | .error e => .error e
  | .fault c => .fault c

theorem complete_withLatch (l : Latch) (s : State) (o : CmdOutcome) :
    complete (withLatch l s) (outcomeWithLatch l o) = withLatch l (complete s o) := by cases o <;> rfl

/-- A check that is the same with both latches: it is enough that each branch is carried over. -/
theorem ite_withLatch {l : Latch} {c : Prop} [Decidable c] {j j' k k' : CmdOutcome} (hj : j' = outcomeWithLatch l j)
    (hk : k' = outcomeWithLatch l k) : (if c then j' else k') = outcomeWithLatch l (if c then j else k) := by
  rw [hj, hk, apply_ite (outcomeWithLatch l)]

theorem needSlot_withLatch {l : Latch} {s : State} (a : Nat) {k k' : CmdOutcome} (hk : k' = outcomeWithLatch l k) :
    needSlot (withLatch l s) a k' = outcomeWithLatch l (needSlot s a k) :=
  ite_withLatch rfl hk

theorem needState_withLatch {l : Latch} {s : State} (a : Nat) (want : SlotState) {k k' : Slot → CmdOutcome}
    (hk : k' (s.slotAt a) = outcomeWithLatch l (k (s.slotAt a))) :
    needState (withLatch l s) a want k' = outcomeWithLatch l (needState s a want k) :=
  ite_withLatch hk rfl

theorem slotOperand_withLatch {l : Latch} {s : State} (a : Nat) (want : SlotState) {k k' : Slot → CmdOutcome}
    (hk : k' (s.slotAt a) = outcomeWithLatch l (k (s.slotAt a))) :
    slotOperand (withLatch l s) a want k' = outcomeWithLatch l (slotOperand s a want k) :=
  needSlot_withLatch a (needState_withLatch a want hk)

theorem returnRead_withLatch (l : Latch) (s : State) (r : Except FaultCause Nat) :
    returnRead (withLatch l s) r = outcomeWithLatch l (returnRead s r) := by cases r <;> rfl

theorem storeBf_withLatch (l : Latch) (s : State) (r : Except FaultCause Memory) :
    storeBf (withLatch l s) r = outcomeWithLatch l (storeBf s r) := by cases r <;> rfl

theorem addAssign_withLatch (l : Latch) (s : State) (a b : Nat) :
    addAssign a b (withLatch l s) = outcomeWithLatch l (addAssign a b s) := by
  refine needSlot_withLatch a (needSlot_withLatch b
    (needState_withLatch a .live (needState_withLatch b .live (ite_withLatch rfl ?_))))
  rw [withLatch_params]
  cases addSlots s.params.maxCapacityBytes (s.slotAt a) (s.slotAt b) <;> rfl

/-- The operands of a latch that a command reads (30_encoding.md R80). -/
def operandsIn (i : Instr) (l : Latch) : List Word := [l.a0, l.a1, l.a2].take (operandsRead i)

/-- A command looks at no other operand: each branch puts in the operands its row lists. -/
theorem commandOf_withLatch {i : Instr} {s : State} {l : Latch} (h : operandsIn i l = operandsIn i s.latch) :
    commandOf i (withLatch l s) = outcomeWithLatch l (commandOf i s) := by
  obtain ⟨w, a0, a1, a2⟩ := l
  cases i with
  | bfSetLen =>
    cases h
    exact ite_withLatch rfl rfl
  | bfGetLen => rfl
  | bfWriteByte =>
    cases h
    exact ite_withLatch rfl (ite_withLatch rfl rfl)
  | bfReadByte =>
    cases h
    exact ite_withLatch rfl rfl
  | bfGetBits =>
    cases h
    exact returnRead_withLatch _ s _
  | bfSetBits =>
    cases h
    exact storeBf_withLatch _ s _
  | bfGetSpan =>
    cases h
    exact returnRead_withLatch _ s _
  | bfSetSpan =>
    cases h
    exact storeBf_withLatch _ s _
  | construct a =>
    cases h
    exact slotOperand_withLatch a .free (ite_withLatch rfl (ite_withLatch rfl rfl))
  | release a => exact slotOperand_withLatch a .live rfl
  | digitAt a =>
    cases h
    exact slotOperand_withLatch a .live (ite_withLatch rfl rfl)
  | setDigitAt a =>
    cases h
    exact slotOperand_withLatch a .live (ite_withLatch rfl (ite_withLatch rfl rfl))
  | getBase a => exact slotOperand_withLatch a .live rfl
  | getBpd a => exact slotOperand_withLatch a .live rfl
  | getDigitCount a => exact slotOperand_withLatch a .live rfl
  | getCapacity a => exact slotOperand_withLatch a .live rfl
  | addAssign a b => exact addAssign_withLatch _ s a b

theorem exec_withLatch {i : Instr} {s : State} {l : Latch} (h : operandsIn i l = operandsIn i s.latch) :
    exec i (withLatch l s) = .next (withLatch l (complete s (commandOf i s))) := by
  rw [exec_eq, commandOf_withLatch h, complete_withLatch]

/-- Settles O29: the latch with a blank operand replaced still holds the operands the command reads. -/
theorem blankOperandsAreNeverRead : Obligations.BlankOperandsAreNeverRead := by
  intro i s x
  refine ⟨_, exec_eq i s, fun h => exec_withLatch ?_, fun h => exec_withLatch ?_, fun h => exec_withLatch ?_⟩
  · exact List.take_set_of_le (l := [s.latch.a0, s.latch.a1, s.latch.a2]) h
  · exact List.take_set_of_le (l := [s.latch.a0, s.latch.a1, s.latch.a2]) h
  · exact List.take_set_of_le (l := [s.latch.a0, s.latch.a1, s.latch.a2]) h.le

/-! ## The checks of slot operands (30_encoding.md R77, 60_exceptions.md R142) -/

theorem exec_of_fault {i : Instr} {s : State} {c : FaultCause} (h : commandOf i s = .fault c) :
    exec i s = .next (s.afterFault c) := by
  rw [exec_eq, h]
  rfl

/-- A command with slot operands is of format S, with its slot in the state it needs, or is `ADD_ASSIGN`. -/
theorem slotOperands_cases (i : Instr) :
    slotOperands i = [] ∨
      (∃ a, slotOperands i = [a] ∧ ∀ s, ∃ k, commandOf i s = slotOperand s a (slotStateNeeded i) k) ∨
      ∃ a b, i = .addAssign a b := by
  cases i with
  | bfSetLen | bfGetLen | bfWriteByte | bfReadByte | bfGetBits | bfSetBits | bfGetSpan | bfSetSpan => exact .inl rfl
  | construct a | release a | digitAt a | setDigitAt a => exact .inr (.inl ⟨a, rfl, fun _ => ⟨_, rfl⟩⟩)
  | getBase a | getBpd a | getDigitCount a | getCapacity a => exact .inr (.inl ⟨a, rfl, fun _ => ⟨_, rfl⟩⟩)
  | addAssign a b => exact .inr (.inr ⟨a, b, rfl⟩)

theorem needSlot_of_le {s : State} {a : Nat} (h : s.params.numSlots ≤ a) (k : CmdOutcome) :
    needSlot s a k = .fault .badSlot := if_pos h

theorem needSlot_of_lt {s : State} {a : Nat} (h : a < s.params.numSlots) (k : CmdOutcome) : needSlot s a k = k :=
  if_neg (Nat.not_le.2 h)

theorem needState_of_ne {s : State} {a : Nat} {want : SlotState} (h : (s.slotAt a).state ≠ want)
    (k : Slot → CmdOutcome) : needState s a want k = .fault .slotState := if_neg h

theorem commandOf_of_badSlot {i : Instr} {s : State} {a : Nat} (ha : a ∈ slotOperands i)
    (hn : s.params.numSlots ≤ a) : commandOf i s = .fault .badSlot := by
  rcases slotOperands_cases i with h | ⟨b, h, hk⟩ | ⟨b, c, rfl⟩
  · simp [h] at ha
  · obtain rfl : a = b := by simpa [h] using ha
    obtain ⟨k, hk⟩ := hk s
    rw [hk, slotOperand, needSlot_of_le hn]
  · rcases needSlot_cases s b _ with ⟨-, hfirst⟩ | ⟨hb, hfirst⟩
    · exact hfirst
    · refine hfirst.trans (needSlot_of_le ?_ _)
      have : a = b ∨ a = c := by simpa [slotOperands] using ha
      omega

theorem commandOf_of_slotState {i : Instr} {s : State} {a : Nat} {as : List Nat} (ha : slotOperands i = a :: as)
    (hn : ∀ x, x ∈ slotOperands i → x < s.params.numSlots) (hs : (s.slotAt a).state ≠ slotStateNeeded i) :
    commandOf i s = .fault .slotState := by
  rcases slotOperands_cases i with h | ⟨b, h, hk⟩ | ⟨b, c, rfl⟩
  · simp [h] at ha
  · obtain ⟨rfl, -⟩ : b = a ∧ [] = as := by simpa [h] using ha
    obtain ⟨k, hk⟩ := hk s
    rw [hk, slotOperand, needSlot_of_lt (hn b (by simp [h])), needState_of_ne hs]
  · obtain ⟨rfl, -⟩ : b = a ∧ [c] = as := by simpa [slotOperands] using ha
    rw [commandOf, addAssign, needSlot_of_lt (hn b (by simp [slotOperands])),
      needSlot_of_lt (hn c (by simp [slotOperands]))]
    exact needState_of_ne hs _

/-- Settles O35. -/
theorem slotChecksComeFirst : Obligations.SlotChecksComeFirst := fun _ _ =>
  ⟨fun ⟨_, ha, hn⟩ => exec_of_fault (commandOf_of_badSlot ha hn),
    fun _ _ ha hn hs => exec_of_fault (commandOf_of_slotState ha hn hs)⟩

/-! ## The engine's turn and the `CMD` write (30_encoding.md R74, R75) -/

/-- With no move scheduled the engine moves (log 2). -/
theorem step_of_schedule_nil {s : State} (hs : s.schedule = []) : step s = engineTurn s := by
  unfold step nextMove
  rw [hs]

/-- Settles O7. -/
theorem stepRunsTheDecodedCommand : Obligations.StepRunsTheDecodedCommand := fun _ _ hb hd =>
  ⟨fun _ hs => step_engine_of_decode hs hb hd,
    fun hs => (step_of_schedule_nil hs).trans (engineTurn_of_decode hb hd)⟩

theorem complete_busy (s : State) (o : CmdOutcome) : (complete s o).status.busy = false := by cases o <;> rfl

/-- A pending command, legal or not, is completed in one turn. -/
theorem engineTurn_clears_busy {s : State} (hb : s.status.busy = true) :
    ∃ t, engineTurn s = .next t ∧ t.status.busy = false := by
  by_cases hl : LegalCommand s.latch.word
  · obtain ⟨i, hd⟩ := (decodes_iff_legalCommand _).2 hl
    exact ⟨_, (engineTurn_of_decode hb hd).trans (exec_eq i s), complete_busy s _⟩
  · exact ⟨_, engineTurn_of_illegal hb hl, rfl⟩

/-- Settles O8. -/
theorem engineTurnClearsBusy : Obligations.EngineTurnClearsBusy := by
  intro s rest hb hs
  rcases hs with hs | hs
  · rw [step_of_schedule_nil hs]
    exact engineTurn_clears_busy hb
  · rw [step_of_schedule hs]
    exact engineTurn_clears_busy (s := { s with schedule := rest }) hb

theorem hostWriteCmd_of_faulted {s : State} (hf : s.status.fault = true) (v : Word) : hostWriteCmd s v = s :=
  if_pos hf

theorem hostWriteCmd_of_busy {s : State} (hf : s.status.fault = false) (hb : s.status.busy = true) (v : Word) :
    hostWriteCmd s v = s.cmdWhileBusy := by
  simp [hostWriteCmd, hf, hb]

/-- Settles O9, by the three branches of `HostWriteCMD`. -/
theorem cmdWriteIsDroppedFaultsOrIssues : Obligations.CmdWriteIsDroppedFaultsOrIssues := by
  intro s v rest hs
  have hstep : step s = .next (hostWriteCmd { s with schedule := rest } v) :=
    step_hostWrite (off := 0) (by decide) rfl hs
  rw [hstep]
  refine ⟨fun hf => ?_, fun hf hb => ?_, fun hf hb => ?_⟩
  · rw [hostWriteCmd_of_faulted (s := { s with schedule := rest }) hf]
  · exact ⟨_, congrArg _ (hostWriteCmd_of_busy (s := { s with schedule := rest }) hf hb v), rfl, rfl, rfl⟩
  · rw [hostWriteCmd_of_ready (s := { s with schedule := rest }) ⟨hf, hb⟩]
    rfl

end Sys2Proof.EncodingProofs
end

section
/-! PROOFS. The statements of 40_bitfield.md: what the checked accesses answer, the laws of `GetBits` and `SetBits`, the
source's chunk-by-chunk algorithms, and the eight commands on the scratch buffer. -/

namespace Sys2Proof.BitFieldProofs

open Sys2Proof.Machine Sys2Proof.Laws Sys2Proof.Claims Sys2Proof.MemoryProofs Sys2Proof.EncodingProofs

/-! ## What a checked access answers (40_bitfield.md R89 to R93) -/

section
variable {m : Memory} {len start stop v : Nat}

theorem getBits_of_invalid (h : ¬RangeValid len start stop) : getBits m len start stop = .error .range := if_neg h

theorem setBits_of_valid (h : RangeValid len start stop) (hv : v < 2 ^ (stop - start)) :
    setBits m len start stop v = .ok (writeBits m len start v (stop - start)) := by
  rw [setBits, if_pos h, if_pos hv]

theorem setBits_of_tooWide (h : RangeValid len start stop) (hv : 2 ^ (stop - start) ≤ v) :
    setBits m len start stop v = .error .valueTooWide := by
  rw [setBits, if_pos h, if_neg (Nat.not_lt.2 hv)]

theorem setBits_of_invalid (h : ¬RangeValid len start stop) : setBits m len start stop v = .error .range := if_neg h

theorem start_add_width (h : RangeValid len start stop) : start + (stop - start) = stop := by
  obtain ⟨hlt, -, -⟩ := h
  exact Nat.add_sub_cancel' hlt.le

theorem range_inside (h : RangeValid len start stop) : start + (stop - start) ≤ 8 * len := by
  rw [start_add_width h]
  obtain ⟨-, -, hle⟩ := h
  exact hle

end

/-- The width of element `i` of width `e` (40_bitfield.md R96). -/
theorem span_width (e i : Nat) : e * (i + 1) - e * i = e := by rw [Nat.mul_succ, Nat.add_sub_cancel_left]

/-- The checks of a span command are those of its bit range (40_bitfield.md R89, R104). -/
theorem rangeValid_span_iff (len e i : Nat) :
    RangeValid len (e * i) (e * (i + 1)) ↔ 1 ≤ e ∧ e ≤ 64 ∧ e * (i + 1) ≤ 8 * len := by
  unfold RangeValid Config.rangeMax
  rw [span_width, Nat.mul_succ]
  omega

/-- Settles O45. -/
theorem setBitsRoundTripsAndIsLocal : Obligations.SetBitsRoundTripsAndIsLocal := by
  intro m len start stop v hm hvalid hv
  have hin := range_inside hvalid
  refine ⟨_, setBits_of_valid hvalid hv, ?_, fun k hk hout => ?_⟩
  · rw [getBits_of_valid _ hvalid, bitsValue_writeBits_same hm hin hv]
  · rw [bitAt_writeBits hm hin hk, start_add_width hvalid, if_neg hout]

/-! ## The chunked `getBits` of the source (40_bitfield.md R91) -/

/-- The bits of a chunk, which lies in one byte, have that byte's index. -/
theorem byteOfBit_chunk {len k w j : Nat} (hw : w ≤ 8 - k % 8) (hj : j < w) :
    byteOfBit len (k + j) = len - 1 - k / 8 ∧ (k + j) % 8 = k % 8 + j := by
  unfold byteOfBit
  omega

/-- A chunk is a slice of its byte. -/
theorem bitsValue_chunk (m : Memory) (len : Nat) {k w : Nat} (hw : w ≤ 8 - k % 8) :
    bitsValue m len k w = (m.read (len - 1 - k / 8)).toNat / 2 ^ (k % 8) % 2 ^ w := by
  apply Nat.eq_of_testBit_eq
  intro j
  rw [testBit_bitsValue, Nat.testBit_mod_two_pow, Nat.testBit_div_two_pow, BitVec.testBit_toNat]
  by_cases hj : j < w
  · obtain ⟨hbyte, hbit⟩ := byteOfBit_chunk (len := len) hw hj
    rw [bitAt, hbyte, hbit, Nat.add_comm]
  · simp [hj]

/-- The bits of a chunk put above those already read. -/
theorem bitsValue_append (m : Memory) (len start c w : Nat) :
    bitsValue m len start c ||| bitsValue m len (start + c) w * 2 ^ c = bitsValue m len start (c + w) := by
  apply Nat.eq_of_testBit_eq
  intro j
  rw [Nat.testBit_or, Nat.testBit_mul_two_pow, testBit_bitsValue, testBit_bitsValue, testBit_bitsValue]
  by_cases hj : j < c
  · have hlow : ¬c ≤ j := by omega
    have hin : j < c + w := by omega
    simp [hj, hlow, hin]
  · have hhigh : c ≤ j := by omega
    have hidx : start + c + (j - c) = start + j := by omega
    have hin : j - c < w ↔ j < c + w := by omega
    simp [hj, hhigh, hidx, hin]

/-- One round of the source reads the bits of one chunk. -/
theorem chunkedGet_succ (m : Memory) (len stop fuel k c acc : Nat) :
    chunkedGet m len stop (fuel + 1) k c acc =
      if k < stop then
        chunkedGet m len stop fuel (k + min (8 - k % 8) (stop - k)) (c + min (8 - k % 8) (stop - k))
          (acc ||| bitsValue m len k (min (8 - k % 8) (stop - k)) * 2 ^ c)
      else acc := by
  rw [bitsValue_chunk m len (Nat.min_le_left _ _)]
  rfl

/-- After `c` bits are read, the remaining chunks complete the value of the range. -/
theorem chunkedGet_eq (m : Memory) (len start stop fuel c : Nat) (hc : start + c ≤ stop)
    (hfuel : stop - (start + c) ≤ fuel) :
    chunkedGet m len stop fuel (start + c) c (bitsValue m len start c) = bitsValue m len start (stop - start) := by
  induction fuel generalizing c with
  | zero =>
    have hdone : stop - start = c := by omega
    rw [chunkedGet, hdone]
  | succ fuel ih =>
    rw [chunkedGet_succ]
    split
    · next hlt =>
      rw [bitsValue_append, Nat.add_assoc]
      exact ih _ (by omega) (by omega)
    · next hlt =>
      have hdone : stop - start = c := by omega
      rw [hdone]

/-- Settles O46: the source starts with no bit read. -/
theorem chunkedGetBitsAgrees : Obligations.ChunkedGetBitsAgrees := by
  intro m len start stop hvalid
  have ⟨hlt, _, _⟩ := hvalid
  rw [getBits_of_valid m hvalid]
  exact congrArg Except.ok (chunkedGet_eq m len start stop _ 0 hlt.le le_rfl).symm

/-! ## The chunked `setBits` of the source (40_bitfield.md R94) -/

/-- A byte with its `w` bits from `r` up replaced by the low bits of `u`, under the source's preserve mask. -/
def spliceByte (x : Byte) (r w u : Nat) : Byte :=
  (x &&& ~~~BitVec.ofNat 8 ((2 ^ w - 1) * 2 ^ r)) ||| BitVec.ofNat 8 (u % 2 ^ w * 2 ^ r)

/-- The buffer after one chunk: the `w` bits from `k` up, which lie in one byte, replaced by the low bits of `u`. -/
def spliceChunk (m : Memory) (len k w u : Nat) : Memory :=
  m.write (len - 1 - k / 8) (spliceByte (m.read (len - 1 - k / 8)) (k % 8) w u)

/-- One round of the source writes the bits of one chunk. -/
theorem chunkedSet_succ (len stop v fuel k c : Nat) (m : Memory) :
    chunkedSet len stop v (fuel + 1) k c m =
      if k < stop then
        chunkedSet len stop v fuel (k + min (8 - k % 8) (stop - k)) (c + min (8 - k % 8) (stop - k))
          (spliceChunk m len k (min (8 - k % 8) (stop - k)) (v / 2 ^ c))
      else m := rfl

/-- The mask keeps exactly the bits outside the chunk. -/
theorem getLsbD_spliceByte (x : Byte) (r w u : Nat) {p : Nat} (hp : p < 8) :
    (spliceByte x r w u).getLsbD p = if r ≤ p ∧ p < r + w then u.testBit (p - r) else x.getLsbD p := by
  rw [spliceByte, BitVec.getLsbD_or, BitVec.getLsbD_and, BitVec.getLsbD_not, BitVec.getLsbD_ofNat,
    BitVec.getLsbD_ofNat, Nat.testBit_mul_two_pow, Nat.testBit_mul_two_pow, Nat.testBit_two_pow_sub_one,
    Nat.testBit_mod_two_pow]
  by_cases hr : r ≤ p
  · have hw : p - r < w ↔ p < r + w := by omega
    by_cases hlt : p < r + w <;> simp [hp, hr, hw, hlt]
  · simp [hp, hr]

/-- One chunk, bit by bit: the bits of the chunk are those of `u`, every other bit is kept. -/
theorem bitAt_spliceChunk {m : Memory} (hm : m.wf) {len k w : Nat} (u : Nat) (hw : w ≤ 8 - k % 8) (hk : k < 8 * len)
    {j : Nat} (hj : j < 8 * len) :
    bitAt (spliceChunk m len k w u) len j = if k ≤ j ∧ j < k + w then u.testBit (j - k) else bitAt m len j := by
  rw [bitAt, spliceChunk, read_write hm]
  split
  · next hbyte =>
    have hmem : k % 8 ≤ j % 8 ∧ j % 8 < k % 8 + w ↔ k ≤ j ∧ j < k + w := by unfold byteOfBit at hbyte; omega
    rw [getLsbD_spliceByte _ _ _ _ (Nat.mod_lt j (by decide)), hbyte]
    simp only [hmem]
    split
    · next hin =>
      have hidx : j % 8 - k % 8 = j - k := by unfold byteOfBit at hbyte; omega
      rw [hidx]
    · rfl
  · next hbyte =>
    have hout : ¬(k ≤ j ∧ j < k + w) := by unfold byteOfBit at hbyte; omega
    rw [if_neg hout, bitAt]

/-- Two canonical buffers with the same view of length `len` and the same bytes from `len` up are the same list. -/
theorem memory_ext_view {m n : Memory} (hm : m.wf) (hn : n.wf) {len : Nat}
    (hview : ∀ k, k < 8 * len → bitAt m len k = bitAt n len k) (hrest : ∀ a, len ≤ a → m.read a = n.read a) :
    m = n := by
  refine memory_ext hm hn fun a => ?_
  by_cases ha : a < len
  · apply BitVec.eq_of_toNat_eq
    rw [← bitsValue_byte m ha, ← bitsValue_byte n ha]
    exact bitsValue_congr fun j hj => hview _ (by omega)
  · exact hrest a (by omega)

/-- One chunk of the source is `SetBits` on the bits of the chunk. -/
theorem spliceChunk_eq_writeBits {m : Memory} (hm : m.wf) {len k w : Nat} (u : Nat) (hw : w ≤ 8 - k % 8)
    (hk : k < 8 * len) : spliceChunk m len k w u = writeBits m len k u w := by
  have hin : k + w ≤ 8 * len := by omega
  refine memory_ext_view (len := len) (wf_write hm _ _) (wf_writeBits hm _ _ _ _) (fun j hj => ?_) fun a ha => ?_
  · rw [bitAt_spliceChunk hm u hw hk hj, bitAt_writeBits hm hin hj]
  · have hne : len - 1 - k / 8 ≠ a := by omega
    rw [spliceChunk, read_write hm, if_neg hne, read_writeBits_of_le hm hin ha]

/-- The bits of a chunk written after those already written. -/
theorem writeBits_append (m : Memory) (len start v c w : Nat) :
    writeBits (writeBits m len start v c) len (start + c) (v / 2 ^ c) w = writeBits m len start v (c + w) := by
  induction w with
  | zero => rfl
  | succ w ih =>
    rw [← Nat.add_assoc, writeBits, writeBits, ih, Nat.testBit_div_two_pow, Nat.add_assoc, Nat.add_comm w c]

/-- After `c` bits are written, the remaining chunks complete the range. -/
theorem chunkedSet_eq {m : Memory} (hm : m.wf) {len start stop : Nat} (v fuel c : Nat) (hc : start + c ≤ stop)
    (hstop : stop ≤ 8 * len) (hfuel : stop - (start + c) ≤ fuel) :
    chunkedSet len stop v fuel (start + c) c (writeBits m len start v c) =
      writeBits m len start v (stop - start) := by
  induction fuel generalizing c with
  | zero =>
    have hdone : stop - start = c := by omega
    rw [chunkedSet, hdone]
  | succ fuel ih =>
    rw [chunkedSet_succ]
    split
    · next hlt =>
      rw [spliceChunk_eq_writeBits (wf_writeBits hm _ _ _ _) _ (Nat.min_le_left _ _) (hlt.trans_le hstop),
        writeBits_append, Nat.add_assoc]
      exact ih _ (by omega) (by omega)
    · next hlt =>
      have hdone : stop - start = c := by omega
      rw [hdone]

/-- Settles O47: the source starts with no bit written. -/
theorem chunkedSetBitsAgrees : Obligations.ChunkedSetBitsAgrees := by
  intro m len start stop v hm hvalid hv
  have ⟨hlt, _, hle⟩ := hvalid
  rw [setBits_of_valid hvalid hv]
  exact congrArg Except.ok (chunkedSet_eq hm v _ 0 hlt.le hle le_rfl).symm

/-! ## Commands that end in Ok (30_encoding.md R75) -/

theorem exec_of_ok {i : Instr} {s t : State} (h : commandOf i s = .ok t) : exec i s = .next t.afterOk := by
  rw [exec_eq, h]
  rfl

theorem exec_of_okValue {i : Instr} {s : State} {v : Nat} (h : commandOf i s = .okValue s v) :
    exec i s = .next { s.afterOk with result := BitVec.ofNat 64 v } := by
  rw [exec_eq, h]
  rfl

/-! ## Commands that read or write a bit range -/

section
variable {i : Instr} {s : State} {start stop v : Nat}

/-- A command that returns `GetBits` of a valid range: the value fits `RESULT`, and is a slice of the number of
20_memory.md R51. -/
theorem exec_returns_range (hi : commandOf i s = returnRead s (getBits s.bf s.bfLen start stop))
    (hvalid : RangeValid s.bfLen start stop) :
    ∃ t, exec i s = .next t ∧ t.result.toNat = bufferNumber s.bf s.bfLen / 2 ^ start % 2 ^ (stop - start) ∧
      t = { s.afterOk with result := t.result } := by
  have ⟨_, hwidth, _⟩ := hvalid
  rw [getBits_of_valid _ hvalid, bitsValue_eq_slice _ (range_inside hvalid)] at hi
  refine ⟨_, exec_of_okValue hi, Nat.mod_eq_of_lt ?_, rfl⟩
  calc bufferNumber s.bf s.bfLen / 2 ^ start % 2 ^ (stop - start)
    _ < 2 ^ (stop - start) := Nat.mod_lt _ (Nat.two_pow_pos _)
    _ ≤ 2 ^ 64 := Nat.pow_le_pow_right (by decide) hwidth

theorem exec_returns_range_of_invalid (hi : commandOf i s = returnRead s (getBits s.bf s.bfLen start stop))
    (h : ¬RangeValid s.bfLen start stop) : exec i s = .next (s.afterFault .range) := by
  rw [getBits_of_invalid h] at hi
  exact exec_of_fault hi

/-- A command that stores `SetBits` of a valid range and a fitting value (40_bitfield.md R93, R106). -/
theorem exec_stores_range (hi : commandOf i s = storeBf s (setBits s.bf s.bfLen start stop v)) (hm : s.bf.wf)
    (hvalid : RangeValid s.bfLen start stop) (hv : v < 2 ^ (stop - start)) :
    ∃ t, exec i s = .next t ∧
      (∀ k, k < 8 * s.bfLen → bitAt t.bf s.bfLen k =
        if start ≤ k ∧ k < stop then v.testBit (k - start) else bitAt s.bf s.bfLen k) ∧
      (∀ j, s.bfLen ≤ j → t.bf.read j = s.bf.read j) ∧ t = { s.afterOk with bf := t.bf } := by
  rw [setBits_of_valid hvalid hv] at hi
  have hin := range_inside hvalid
  refine ⟨_, exec_of_ok hi, fun k hk => ?_, fun j hj => read_writeBits_of_le hm hin hj, rfl⟩
  have hbit := bitAt_writeBits (v := v) hm hin hk
  rwa [start_add_width hvalid] at hbit

theorem exec_stores_range_of_invalid (hi : commandOf i s = storeBf s (setBits s.bf s.bfLen start stop v))
    (h : ¬RangeValid s.bfLen start stop) : exec i s = .next (s.afterFault .range) := by
  rw [setBits_of_invalid h] at hi
  exact exec_of_fault hi

theorem exec_stores_range_of_tooWide (hi : commandOf i s = storeBf s (setBits s.bf s.bfLen start stop v))
    (hvalid : RangeValid s.bfLen start stop) (hv : 2 ^ (stop - start) ≤ v) :
    exec i s = .next (s.afterFault .valueTooWide) := by
  rw [setBits_of_tooWide hvalid hv] at hi
  exact exec_of_fault hi

end

/-- Settles O40. -/
theorem bfGetBitsReturnsTheRange : Obligations.BfGetBitsReturnsTheRange :=
  ⟨decodeOfEncodeIsTheCommand .bfGetBits rfl, fun _ =>
    ⟨exec_returns_range rfl, exec_returns_range_of_invalid rfl⟩⟩

/-- Settles O41. -/
theorem bfSetBitsWritesTheRange : Obligations.BfSetBitsWritesTheRange :=
  ⟨decodeOfEncodeIsTheCommand .bfSetBits rfl, fun _ hm =>
    ⟨fun hlt hwidth hle hv => exec_stores_range rfl hm ⟨hlt, hwidth, hle⟩ hv, exec_stores_range_of_invalid rfl,
      fun hlt hwidth hle hv => exec_stores_range_of_tooWide rfl ⟨hlt, hwidth, hle⟩ hv⟩⟩

/-- Settles O42: the element's range is `[e·i, e·(i+1))`. -/
theorem bfGetSpanReturnsTheElement : Obligations.BfGetSpanReturnsTheElement := by
  refine ⟨decodeOfEncodeIsTheCommand .bfGetSpan rfl, ?_⟩
  rintro s e i rfl rfl
  rw [← rangeValid_span_iff]
  refine ⟨fun hvalid => ?_, exec_returns_range_of_invalid rfl⟩
  have hread := exec_returns_range (i := .bfGetSpan) rfl hvalid
  rwa [span_width] at hread

/-- Settles O43, over the same range as O42. -/
theorem bfSetSpanWritesTheElement : Obligations.BfSetSpanWritesTheElement := by
  refine ⟨decodeOfEncodeIsTheCommand .bfSetSpan rfl, ?_⟩
  rintro s e i v rfl rfl rfl hm
  have hiff := rangeValid_span_iff s.bfLen s.latch.a0.toNat s.latch.a1.toNat
  have hwidth := span_width s.latch.a0.toNat s.latch.a1.toNat
  refine ⟨fun hpos hle hend hv => ?_, fun hbad => ?_, fun hpos hle hend hv => ?_⟩
  · exact exec_stores_range rfl hm (hiff.2 ⟨hpos, hle, hend⟩) (by rwa [hwidth])
  · exact exec_stores_range_of_invalid (i := .bfSetSpan) rfl (hiff.not.2 hbad)
  · exact exec_stores_range_of_tooWide (i := .bfSetSpan) rfl (hiff.2 ⟨hpos, hle, hend⟩) (by rwa [hwidth])

/-! ## The length and single bytes (40_bitfield.md R98 to R101) -/

/-- Settles O36. -/
theorem bfSetLenSetsTheLength : Obligations.BfSetLenSetsTheLength := by
  refine ⟨decodeOfEncodeIsTheCommand .bfSetLen rfl, fun s =>
    ⟨fun hle => ?_, fun hgt => exec_of_fault (if_pos hgt)⟩⟩
  exact exec_of_ok (t := { s with bfLen := s.latch.a0.toNat }) (if_neg (Nat.not_lt.2 hle))

/-- Settles O37. -/
theorem bfGetLenReturnsTheLength : Obligations.BfGetLenReturnsTheLength :=
  ⟨decodeOfEncodeIsTheCommand .bfGetLen rfl, fun _ => exec_of_okValue rfl⟩

/-- A value of at most 255 is the number of the byte it is stored as. -/
theorem toNat_read_write_same {m : Memory} (hm : m.wf) (a : Nat) {x : Nat} (hx : x ≤ 255) :
    ((m.write a (BitVec.ofNat 8 x)).read a).toNat = x := by
  rw [read_write hm, if_pos rfl]
  exact Nat.mod_eq_of_lt (Nat.lt_succ_of_le hx)

/-- Settles O38, by the two checks in their order. -/
theorem bfWriteByteStoresOneByte : Obligations.BfWriteByteStoresOneByte := by
  refine ⟨decodeOfEncodeIsTheCommand .bfWriteByte rfl, fun s hm =>
    ⟨fun hin hfits => ?_, fun hout => exec_of_fault (if_pos hout), fun hin hwide => ?_⟩⟩
  · have hstore : commandOf .bfWriteByte s =
        .ok { s with bf := s.bf.write s.latch.a0.toNat (BitVec.ofNat 8 s.latch.a1.toNat) } :=
      (if_neg (Nat.not_le.2 hin)).trans (if_neg (Nat.not_lt.2 hfits))
    exact ⟨_, exec_of_ok hstore, toNat_read_write_same hm _ hfits,
      fun j hj => (read_write hm _ j _).trans (if_neg hj.symm), rfl⟩
  · exact exec_of_fault ((if_neg (Nat.not_le.2 hin)).trans (if_pos hwide))

/-- Settles O39: a byte's number, stored in 64 bits, is the byte zero-extended. -/
theorem bfReadByteReturnsTheByte : Obligations.BfReadByteReturnsTheByte := by
  refine ⟨decodeOfEncodeIsTheCommand .bfReadByte rfl, fun s =>
    ⟨fun hin => ?_, fun hout => exec_of_fault (if_pos hout)⟩⟩
  have hread : commandOf .bfReadByte s = .okValue s (s.bf.read s.latch.a0.toNat).toNat := if_neg (Nat.not_le.2 hin)
  rw [exec_of_okValue hread, BitVec.ofNat_toNat]

end Sys2Proof.BitFieldProofs
end

section
/-! PROOFS. The statements of 41_packed_number.md: what a command of one slot operand answers, the capacity that
`CONSTRUCT` needs, and the eight commands of the packed-digit store. -/

namespace Sys2Proof.PackedNumberProofs

open Sys2Proof.Machine Sys2Proof.Laws Sys2Proof.Claims Sys2Proof.MemoryProofs Sys2Proof.EncodingProofs
  Sys2Proof.BitFieldProofs

/-! ## Commands of one slot operand (30_encoding.md R73, R77) -/

/-- The word of a command of format S: its opcode, with the slot in bits 15:8. -/
theorem decode_formatS {i : Instr} {a : Nat} (hi : slotOperands i = [a]) (ha : a < 256) :
    decode (BitVec.ofNat 64 (opcode i + 0x100 * a)) = .ok i := by
  have hA : slotA i = a := by simp [slotA, hi]
  have hB : slotB i = 0 := by simp [slotB, hi]
  have hword : BitVec.ofNat 64 (opcode i + 0x100 * a) = encode i := by
    rw [encode_eq, hA, hB, packFields, Nat.zero_mul, Nat.add_zero, Nat.mul_comm]
    rfl
  rw [hword]
  exact decodeOfEncodeIsTheCommand i ((wellFormed_iff i).2 ⟨by omega, by omega⟩)

section
variable {i : Instr} {s : State} {a : Nat} {sl : Slot}

theorem slotOperand_of_state {want : SlotState} (ha : a < s.params.numSlots) (hs : (s.slotAt a).state = want)
    (k : Slot → CmdOutcome) : slotOperand s a want k = k (s.slotAt a) :=
  (needSlot_of_lt ha _).trans (if_pos hs)

theorem exec_of_wrong_state (hi : slotOperands i = [a]) (ha : a < s.params.numSlots)
    (hs : (s.slotAt a).state ≠ slotStateNeeded i) : exec i s = .next (s.afterFault .slotState) :=
  exec_of_fault (commandOf_of_slotState hi (by simpa [hi] using ha) hs)

/-- The fault of every command but `CONSTRUCT` on a FREE slot. -/
theorem exec_of_free (hi : slotOperands i = [a]) (hneed : slotStateNeeded i = .live) (ha : a < s.params.numSlots)
    (hf : (s.slotAt a).state = .free) : exec i s = .next (s.afterFault .slotState) :=
  exec_of_wrong_state hi ha (by rw [hf, hneed]; decide)

theorem exec_of_error {e : ErrCode} (h : commandOf i s = .error e) : exec i s = .next (s.afterError e.code) := by
  rw [exec_eq, h]
  rfl

/-- A command that replaces slot `a` and ends in Ok changes `STATUS` beside it and nothing else. -/
theorem exec_of_setSlot (ha : a < s.slots.length) (h : commandOf i s = .ok (s.setSlot a sl)) :
    ∃ t, exec i s = .next t ∧ t = { s.afterOk with slots := s.slots.set a sl } ∧ t.slotAt a = sl :=
  ⟨_, exec_of_ok h, rfl, slotAt_setSlot_same ha sl⟩

theorem lt_slots_length (h : s.Inv) (ha : a < s.params.numSlots) : a < s.slots.length := h.slot_count ▸ ha

end

/-! ## The capacity of a new number (41_packed_number.md R122) -/

section
variable {M : Nat} {sl : Slot}

theorem bpd_le_63 (h : sl.LiveInv M) : sl.bpd ≤ 63 := by
  obtain ⟨-, hmax⟩ := h.base_range
  refine h.bpd_least.2 63 ?_
  unfold Config.baseMax at hmax
  omega

/-- The width is the least that holds the digits of the base, so one bit less holds fewer than the base. -/
theorem two_pow_lt_base (h : sl.LiveInv M) : 2 ^ (sl.bpd - 1) < sl.base := by
  have hbase := two_le_base h
  have hbpd := one_le_bpd h
  by_contra hle
  have := h.bpd_least.2 (sl.bpd - 1) (by omega)
  omega

end

/-- `n` digits of `p` bits that a value below `2^64` can have fit 16 bytes, and the doublings of `ceil(p / 8)` meet
them at or below 16: four for a width of one byte, three for two, two for three or four, and one above. -/
theorem exists_doubling_le_sixteen {p n : Nat} (hp : 1 ≤ p) (hp' : p ≤ 63) (hn : 1 ≤ n) (hn' : n ≤ 64)
    (hpn : (p - 1) * (n - 1) ≤ 63) : ∃ k, ceilBytes p * 2 ^ k ≤ 16 ∧ p * n ≤ 8 * (ceilBytes p * 2 ^ k) := by
  obtain ⟨q, rfl⟩ := Nat.exists_eq_add_of_le' hp
  obtain ⟨m, rfl⟩ := Nat.exists_eq_add_of_le' hn
  simp only [Nat.add_sub_cancel] at hpn
  have hbits : (q + 1) * (m + 1) = q * m + q + m + 1 := by ring
  have hfew : ∀ c, c ≤ q → c * m ≤ 63 := fun c hc => (Nat.mul_le_mul_right m hc).trans hpn
  unfold ceilBytes
  rcases Nat.lt_or_ge q 2 with hq | hq
  · have hqm : q * m ≤ 1 * m := Nat.mul_le_mul_right m (by omega)
    exact ⟨4, by omega, by omega⟩
  · have hm := hfew 2 hq
    rcases Nat.lt_or_ge q 8 with hq8 | hq8
    · exact ⟨4, by omega, by omega⟩
    · have hm8 := hfew 8 hq8
      rcases Nat.lt_or_ge q 16 with hq16 | hq16
      · exact ⟨3, by omega, by omega⟩
      · have hm16 := hfew 16 hq16
        rcases Nat.lt_or_ge q 32 with hq32 | hq32
        · exact ⟨2, by omega, by omega⟩
        · have hm32 := hfew 32 hq32
          have hqm : q * m ≤ q * 1 := Nat.mul_le_mul_left q (by omega)
          exact ⟨1, by omega, by omega⟩

/-- All but the top digit, at one bit less than the width each, are bits of the value. -/
theorem digits_of_builtSlot_le {x b : Nat} (hx : x < 2 ^ 64) (hb : 2 ≤ b) (hb' : b ≤ 2 ^ 63 - 1) :
    ((builtSlot x b).bpd - 1) * ((builtSlot x b).digitCount - 1) ≤ 63 := by
  obtain ⟨hinv, -, -⟩ := builtSlot_spec hx hb hb' le_rfl
  obtain ⟨-, -, -, -, -, -, hcount⟩ := digitsOf_spec hb hx
  have hpow : 2 ^ (((builtSlot x b).bpd - 1) * ((builtSlot x b).digitCount - 1)) < 2 ^ 64 :=
    calc 2 ^ (((builtSlot x b).bpd - 1) * ((builtSlot x b).digitCount - 1))
      _ = (2 ^ ((builtSlot x b).bpd - 1)) ^ ((builtSlot x b).digitCount - 1) := pow_mul _ _ _
      _ ≤ b ^ ((builtSlot x b).digitCount - 1) := Nat.pow_le_pow_left (two_pow_lt_base hinv).le _
      _ ≤ max x 1 := hcount
      _ < 2 ^ 64 := max_lt hx (by decide)
  have := (Nat.pow_lt_pow_iff_right (by decide)).1 hpow
  omega

theorem capacityBytes_builtSlot_le {x b : Nat} (hx : x < 2 ^ 64) (hb : 2 ≤ b) (hb' : b ≤ 2 ^ 63 - 1) :
    (builtSlot x b).capacityBytes ≤ 16 := by
  obtain ⟨hinv, -, hleast⟩ := builtSlot_spec hx hb hb' le_rfl
  obtain ⟨-, -, -, hcount, -⟩ := digitsOf_spec hb hx
  obtain ⟨k, hle, hroom⟩ := exists_doubling_le_sixteen (one_le_bpd hinv) (bpd_le_63 hinv) hinv.count_pos hcount
    (digits_of_builtSlot_le hx hb hb')
  exact (hleast k hroom).trans hle

/-! ## `CONSTRUCT` (41_packed_number.md R114) -/

section
variable {s : State} {a : Nat}

/-- A base in range on a FREE slot: no value needs more bytes than the parameters allow. -/
theorem construct_of_base_in_range (hp : s.params.Valid) (ha : a < s.params.numSlots)
    (hf : (s.slotAt a).state = .free) (hb : 2 ≤ operand1 s) (hb' : operand1 s ≤ 2 ^ 63 - 1) :
    construct a s = .ok (s.setSlot a (builtSlot (operand0 s) (operand1 s))) := by
  obtain ⟨-, -, hcap, -⟩ := hp
  have hbase : ¬(operand1 s < Config.baseMin ∨ Config.baseMax < operand1 s) := by
    unfold Config.baseMin Config.baseMax
    omega
  have hfits : (builtSlot (operand0 s) (operand1 s)).capacityBytes ≤ 16 :=
    capacityBytes_builtSlot_le s.latch.a0.isLt hb hb'
  exact (slotOperand_of_state ha hf _).trans ((if_neg hbase).trans (if_neg (by omega)))

theorem construct_of_base_out_of_range (ha : a < s.params.numSlots) (hf : (s.slotAt a).state = .free)
    (hb : operand1 s < 2 ∨ 2 ^ 63 - 1 < operand1 s) : construct a s = .error .invalidBase :=
  (slotOperand_of_state ha hf _).trans (if_pos hb)

/-- What `CONSTRUCT` can answer: a fault of the slot's checks, `INVALID_BASE`, or Ok; never `ALLOCATION_FAILURE`
(41_packed_number.md R122). -/
theorem construct_cases (hp : s.params.Valid) (a : Nat) :
    (∃ c, construct a s = .fault c) ∨ construct a s = .error .invalidBase ∨
      construct a s = .ok (s.setSlot a (builtSlot (operand0 s) (operand1 s))) := by
  rcases slotOperand_cases s a .free _ with ⟨-, e⟩ | ⟨-, -, e⟩ | ⟨ha, hf, -⟩
  · exact .inl ⟨_, e⟩
  · exact .inl ⟨_, e⟩
  · by_cases hb : operand1 s < 2 ∨ 2 ^ 63 - 1 < operand1 s
    · exact .inr (.inl (construct_of_base_out_of_range ha hf hb))
    · exact .inr (.inr (construct_of_base_in_range hp ha hf (by omega) (by omega)))

end

/-- Settles O49. -/
theorem constructBuildsTheNumber : Obligations.ConstructBuildsTheNumber := by
  refine ⟨fun a => decode_formatS (i := .construct a) rfl, ?_⟩
  rintro s a _ _ h ha rfl rfl
  refine ⟨fun hf hb hb' => ?_, fun hl => ?_, fun hf hb => ?_⟩
  · obtain ⟨-, -, hmax, -⟩ := h.params_valid
    have hcap := (capacityBytes_builtSlot_le s.latch.a0.isLt hb hb').trans hmax
    obtain ⟨hinv, hvalue, hleast⟩ := builtSlot_spec s.latch.a0.isLt hb hb' hcap
    obtain ⟨t, hexec, ht, hslot⟩ := exec_of_setSlot (i := .construct a) (lt_slots_length h ha)
      (construct_of_base_in_range h.params_valid ha hf hb hb')
    exact ⟨t, _, hexec, ht, hslot, rfl, rfl, hvalue, rfl, hinv, hleast⟩
  · exact exec_of_wrong_state rfl ha (by simp [hl, slotStateNeeded])
  · exact exec_of_error (i := .construct a) (construct_of_base_out_of_range ha hf hb)

/-- Settles O50: the bound, base 3 at the largest value, and the ends `CONSTRUCT` can have. -/
theorem constructNeedsAtMostSixteenBytes : Obligations.ConstructNeedsAtMostSixteenBytes := by
  refine ⟨fun x b => capacityBytes_builtSlot_le, ⟨by decide, by decide⟩, fun s a hp herr => ⟨_, exec_eq _ s, ?_⟩⟩
  change (complete s (construct a s)).status.err ≠ 3
  rcases construct_cases hp a with ⟨c, e⟩ | e | e <;> rw [e]
  · exact herr
  · change ErrCode.code .invalidBase ≠ 3
    decide
  · change (0 : BitVec 4) ≠ 3
    decide

/-! ## `RELEASE` and the queries (41_packed_number.md R115, R118 to R121) -/

/-- Settles O51. -/
theorem releaseFreesTheSlot : Obligations.ReleaseFreesTheSlot := by
  refine ⟨fun a => decode_formatS (i := .release a) rfl, fun s a ha hlen => ⟨fun hl => ?_, exec_of_free rfl rfl ha⟩⟩
  obtain ⟨t, hexec, ht, hslot⟩ := exec_of_setSlot (i := .release a) (hlen ▸ ha) (slotOperand_of_state ha hl _)
  exact ⟨t, hexec, hslot, by rw [hslot]; exact ht⟩

/-- A query of a LIVE slot returns its field. -/
theorem exec_query {i : Instr} {s : State} {a : Nat} {f : Slot → Nat}
    (hi : commandOf i s = slotOperand s a .live fun sl => .okValue s (f sl)) (ha : a < s.params.numSlots)
    (hl : (s.slotAt a).state = .live) :
    exec i s = .next { s.afterOk with result := BitVec.ofNat 64 (f (s.slotAt a)) } :=
  exec_of_okValue (hi.trans (slotOperand_of_state ha hl _))

/-- Settles O54. -/
theorem queriesReturnTheFields : Obligations.QueriesReturnTheFields := by
  refine ⟨fun a ha => ?_, fun s a ha => ⟨fun hl => ?_, fun hf => ?_⟩⟩
  · exact ⟨decode_formatS (i := .getBase a) rfl ha, decode_formatS (i := .getBpd a) rfl ha,
      decode_formatS (i := .getDigitCount a) rfl ha, decode_formatS (i := .getCapacity a) rfl ha⟩
  · exact ⟨exec_query (f := Slot.base) rfl ha hl, exec_query (f := Slot.bpd) rfl ha hl,
      exec_query (f := Slot.digitCount) rfl ha hl, exec_query (f := Slot.capacityBytes) rfl ha hl⟩
  · exact ⟨exec_of_free rfl rfl ha hf, exec_of_free rfl rfl ha hf, exec_of_free rfl rfl ha hf,
      exec_of_free rfl rfl ha hf⟩

/-! ## `DIGIT_AT` (41_packed_number.md R116) -/

section
variable {s : State} {a : Nat}

theorem digitAt_of_lt (ha : a < s.params.numSlots) (hl : (s.slotAt a).state = .live)
    (hi : operand0 s < (s.slotAt a).digitCount) :
    digitAt a s = .okValue s ((s.slotAt a).digit (operand0 s)) :=
  (slotOperand_of_state ha hl _).trans (if_neg (Nat.not_le.2 hi))

theorem digitAt_of_le (ha : a < s.params.numSlots) (hl : (s.slotAt a).state = .live)
    (hi : (s.slotAt a).digitCount ≤ operand0 s) : digitAt a s = .fault .index :=
  (slotOperand_of_state ha hl _).trans (if_pos hi)

end

section
variable {M i : Nat} {sl : Slot}

/-- A significant digit fits `RESULT`. -/
theorem toNat_ofNat_digit (h : sl.LiveInv M) (hi : i < sl.digitCount) :
    (BitVec.ofNat 64 (sl.digit i)).toNat = sl.digit i := by
  have hdigit := h.digits_lt i hi
  obtain ⟨-, hbase⟩ := h.base_range
  unfold Config.baseMax at hbase
  exact Nat.mod_eq_of_lt (by omega)

/-- A significant digit is a slice of the slot's big-endian number (20_memory.md R54). -/
theorem digit_eq_slice (h : sl.LiveInv M) (hi : i < sl.digitCount) :
    sl.digit i = bufferNumber sl.buf sl.capacityBytes / 2 ^ (sl.bpd * i) % 2 ^ sl.bpd :=
  bitsValue_eq_slice sl.buf (digit_range_le hi h.room)

end

/-- Settles O52. -/
theorem digitAtReturnsTheDigit : Obligations.DigitAtReturnsTheDigit := by
  refine ⟨fun a => decode_formatS (i := .digitAt a) rfl, ?_⟩
  rintro s a _ h ha rfl
  refine ⟨fun hl hi => ?_, fun hl hi => exec_of_fault (digitAt_of_le ha hl hi), exec_of_free rfl rfl ha⟩
  have hinv := liveInv_slotAt h hl
  have hresult := toNat_ofNat_digit hinv hi
  refine ⟨_, exec_of_okValue (digitAt_of_lt ha hl hi), ?_, ?_, rfl⟩
  · exact hresult.trans (digit_eq_slice hinv hi)
  · exact hresult.trans_lt (hinv.digits_lt _ hi)

/-! ## `SET_DIGIT_AT` (41_packed_number.md R117) -/

section
variable {s : State} {a : Nat}

theorem setDigitAt_of_lt (ha : a < s.params.numSlots) (hl : (s.slotAt a).state = .live)
    (hi : operand0 s < (s.slotAt a).capDigits) (hv : operand1 s < (s.slotAt a).base) :
    setDigitAt a s = .ok (s.setSlot a ((s.slotAt a).withDigit (operand0 s) (operand1 s))) :=
  (slotOperand_of_state ha hl _).trans ((if_neg (Nat.not_le.2 hi)).trans (if_neg (Nat.not_le.2 hv)))

theorem setDigitAt_of_index (ha : a < s.params.numSlots) (hl : (s.slotAt a).state = .live)
    (hi : (s.slotAt a).capDigits ≤ operand0 s) : setDigitAt a s = .fault .index :=
  (slotOperand_of_state ha hl _).trans (if_pos hi)

theorem setDigitAt_of_tooWide (ha : a < s.params.numSlots) (hl : (s.slotAt a).state = .live)
    (hi : operand0 s < (s.slotAt a).capDigits) (hv : (s.slotAt a).base ≤ operand1 s) :
    setDigitAt a s = .fault .valueTooWide :=
  (slotOperand_of_state ha hl _).trans ((if_neg (Nat.not_le.2 hi)).trans (if_pos hv))

end

/-- Settles O53. -/
theorem setDigitAtWritesTheDigit : Obligations.SetDigitAtWritesTheDigit := by
  refine ⟨fun a => decode_formatS (i := .setDigitAt a) rfl, ?_⟩
  rintro s a _ _ h ha rfl rfl
  refine ⟨fun hl hi hv => ?_, fun hl hi => exec_of_fault (setDigitAt_of_index ha hl hi),
    fun hl hi hv => exec_of_fault (setDigitAt_of_tooWide ha hl hi hv), exec_of_free rfl rfl ha⟩
  obtain ⟨hinv, hdigits, hclear⟩ := withDigit_spec (liveInv_slotAt h hl) hi hv
  obtain ⟨t, hexec, ht, hslot⟩ := exec_of_setSlot (i := .setDigitAt a) (lt_slots_length h ha)
    (setDigitAt_of_lt ha hl hi hv)
  exact ⟨t, _, hexec, ht, hslot, rfl, hdigits, hclear, hinv⟩

/-! ## A digit set and read back (41_packed_number.md R123) -/

/-- The count stays above a digit that is set to something else than 0, or that is not the top one: the digit itself,
or the old top digit, is not 0. -/
theorem lt_digitCount_withDigit {M i v : Nat} {sl : Slot} (h : sl.LiveInv M) (hi : i < sl.digitCount)
    (hv : v < sl.base) (hkeep : i + 1 < sl.digitCount ∨ v ≠ 0) : i < (sl.withDigit i v).digitCount := by
  obtain ⟨-, hle, -⟩ := capDigits_spec h
  obtain ⟨-, hdigits, hclear⟩ := withDigit_spec h (hi.trans_le hle) hv
  by_contra hdrop
  have hzero : ∀ j, i ≤ j → j < sl.digitCount → (if j = i then v else sl.digit j) = 0 := fun j hij hj => by
    rw [← hdigits j (by omega)]
    exact hclear j (by omega) (by omega)
  rcases hkeep with htop | hv0
  · have hlast := hzero (sl.digitCount - 1) (by omega) (by omega)
    rw [if_neg (by omega)] at hlast
    exact h.top_nonzero (by omega) hlast
  · have hset := hzero i le_rfl hi
    rw [if_pos rfl] at hset
    exact hv0 hset

/-- Settles O55. The second command sees the slot the first one left, whatever else its latch holds. -/
theorem setDigitThenDigitAtRoundTrips : Obligations.SetDigitThenDigitAtRoundTrips := by
  rintro s a _ _ l h ha hl rfl rfl hi hv hlatch
  have hlive := liveInv_slotAt h hl
  obtain ⟨-, hle, -⟩ := capDigits_spec hlive
  have hcap := hi.trans_le hle
  obtain ⟨hinv, hdigits, -⟩ := withDigit_spec hlive hcap hv
  obtain ⟨t, hexec, ht, hslot⟩ := exec_of_setSlot (i := .setDigitAt a) (lt_slots_length h ha)
    (setDigitAt_of_lt ha hl hcap hv)
  have ha' : a < t.params.numSlots := by rw [ht]; exact ha
  have hl' : (t.slotAt a).state = .live := by rw [hslot]; exact hl
  have hop : operand0 { t with latch := l } = operand0 s := congrArg BitVec.toNat hlatch
  refine ⟨t, hexec, fun hin => ?_, fun hkeep => ?_, fun hout => ?_⟩
  · have hread := digitAt_of_lt (s := { t with latch := l }) ha' hl' (by rw [hop]; exact hin)
    refine ⟨_, exec_of_okValue (i := .digitAt a) hread, ?_, by rw [ht]; rfl⟩
    change (BitVec.ofNat 64 ((t.slotAt a).digit (operand0 { t with latch := l }))).toNat = _
    rw [hslot] at hin ⊢
    rw [hop, toNat_ofNat_digit hinv hin, hdigits _ hcap, if_pos rfl]
  · rw [hslot]
    exact lt_digitCount_withDigit hlive hi hv hkeep
  · exact exec_of_fault (digitAt_of_le (s := { t with latch := l }) ha' hl' (by rw [hop]; exact hout))

end Sys2Proof.PackedNumberProofs
end

section
/-! PROOFS. The statements of 42_carry_adder.md: the carry step, what `ADD_ASSIGN` answers check by check, and the sum
it leaves. -/

namespace Sys2Proof.CarryAdderProofs

open Sys2Proof.Machine Sys2Proof.Laws Sys2Proof.Claims Sys2Proof.EncodingProofs Sys2Proof.PackedNumberProofs

/-! ## The carry step (42_carry_adder.md R125, R126) -/

/-- Settles O56: the law of the carry step, and the bound that the largest base leaves. -/
theorem carryStepIsExact : Obligations.CarryStepIsExact := by
  intro x y cin b _ hmax hx hy hcin
  obtain ⟨hsum, hdigit, hcarry⟩ := carryStep_spec hx hy hcin
  exact ⟨hsum.symm, hdigit, hcarry, by omega, by omega⟩

/-! ## When growth succeeds (41_packed_number.md R110, R111) -/

/-- The loop of `EnsureCapacity` stops at or before any doubling with room. -/
theorem growCapacity_least {bits c k : Nat} (hc : 1 ≤ c) (hk : bits ≤ 8 * (c * 2 ^ k)) :
    growCapacity (ceilBytes bits) c ≤ c * 2 ^ k := by
  obtain ⟨j, hgrow, -, hbelow⟩ := growCapacity_spec (ceilBytes bits) hc
  have hroom : ceilBytes bits ≤ c * 2 ^ k := (ceilBytes_le_iff bits _).2 hk
  have hjk : j ≤ k := Nat.not_lt.1 fun hlt => Nat.not_lt.2 hroom (hbelow k hlt)
  rw [hgrow]
  exact Nat.mul_le_mul_left c (Nat.pow_le_pow_right (by decide) hjk)

section
variable {M n : Nat} {sl : Slot}

theorem exists_ensureCapacity_eq_ok (hc : 1 ≤ sl.capacityBytes)
    (hfits : ∃ k, sl.bpd * n ≤ 8 * (sl.capacityBytes * 2 ^ k) ∧ sl.capacityBytes * 2 ^ k ≤ M) :
    ∃ g, ensureCapacity M sl n = .ok g := by
  rcases ensureCapacity_cases M sl n with ⟨-, e⟩ | ⟨-, -, e⟩ | ⟨-, hover, -⟩
  · exact ⟨_, e⟩
  · exact ⟨_, e⟩
  · obtain ⟨k, hroom, hlimit⟩ := hfits
    have := growCapacity_least hc hroom
    omega

theorem ensureCapacity_eq_allocationFailure (hc : 1 ≤ sl.capacityBytes) (hcM : sl.capacityBytes ≤ M)
    (hover : ∀ k, sl.bpd * n ≤ 8 * (sl.capacityBytes * 2 ^ k) → M < sl.capacityBytes * 2 ^ k) :
    ensureCapacity M sl n = .error .allocationFailure := by
  rcases ensureCapacity_cases M sl n with ⟨hroom, -⟩ | ⟨-, hle, -⟩ | ⟨-, -, e⟩
  · have := hover 0 (by omega)
    omega
  · obtain ⟨k, hgrow, hneed, -⟩ := growCapacity_spec (ceilBytes (sl.bpd * n)) hc
    have := hover k ((ceilBytes_le_iff _ _).1 hneed)
    omega
  · exact e

end

/-! ## What `ADD_ASSIGN` answers, in the order of its checks (42_carry_adder.md R127) -/

section
variable {s : State} {a b : Nat}

theorem addAssign_of_right_free (ha : a < s.params.numSlots) (hb : b < s.params.numSlots)
    (hl : (s.slotAt a).state = .live) (hr : (s.slotAt b).state = .free) :
    addAssign a b s = .fault .slotState := by
  rw [addAssign, needSlot_of_lt ha, needSlot_of_lt hb, needState, if_pos hl, needState_of_ne (by simp [hr])]

/-- Two slots that exist and are LIVE pass the checks of `ADD_ASSIGN`. -/
theorem two_slots_of_live (ha : a < s.params.numSlots) (hb : b < s.params.numSlots)
    (hl : (s.slotAt a).state = .live) (hr : (s.slotAt b).state = .live) (k : Slot → Slot → CmdOutcome) :
    (needSlot s a <| needSlot s b <| needState s a .live fun d => needState s b .live fun r => k d r) =
      k (s.slotAt a) (s.slotAt b) := by
  rw [needSlot_of_lt ha, needSlot_of_lt hb, needState, if_pos hl, needState, if_pos hr]

theorem addAssign_of_base_ne (ha : a < s.params.numSlots) (hb : b < s.params.numSlots)
    (hl : (s.slotAt a).state = .live) (hr : (s.slotAt b).state = .live)
    (hbase : (s.slotAt a).base ≠ (s.slotAt b).base) : addAssign a b s = .error .baseMismatch :=
  (two_slots_of_live ha hb hl hr _).trans (if_pos hbase)

theorem addAssign_of_growth_error {e : ErrCode} (ha : a < s.params.numSlots) (hb : b < s.params.numSlots)
    (hl : (s.slotAt a).state = .live) (hr : (s.slotAt b).state = .live)
    (hbase : (s.slotAt a).base = (s.slotAt b).base)
    (he : ensureCapacity s.params.maxCapacityBytes (s.slotAt a)
      (max (s.slotAt a).digitCount (s.slotAt b).digitCount + 1) = .error e) : addAssign a b s = .error e := by
  refine (two_slots_of_live ha hb hl hr _).trans ((if_neg (not_not.2 hbase)).trans ?_)
  simp only [addSlots, he]

theorem addAssign_of_grown {g : Slot} (ha : a < s.params.numSlots) (hb : b < s.params.numSlots)
    (hl : (s.slotAt a).state = .live) (hr : (s.slotAt b).state = .live)
    (hbase : (s.slotAt a).base = (s.slotAt b).base)
    (hg : ensureCapacity s.params.maxCapacityBytes (s.slotAt a)
      (max (s.slotAt a).digitCount (s.slotAt b).digitCount + 1) = .ok g) :
    addAssign a b s = .ok (s.setSlot a (addInto g (s.slotAt a).addend (s.slotAt b).addend
      (max (s.slotAt a).digitCount (s.slotAt b).digitCount))) := by
  refine (two_slots_of_live ha hb hl hr _).trans ((if_neg (not_not.2 hbase)).trans ?_)
  simp only [addSlots, hg]

end

/-- Settles O58. -/
theorem addAssignFailsWithoutMutation : Obligations.AddAssignFailsWithoutMutation := by
  rintro s a b _ h ha hb rfl
  refine ⟨fun hf => ?_, fun hl hf => exec_of_fault (i := .addAssign a b) (addAssign_of_right_free ha hb hl hf),
    fun hl hr hne => exec_of_error (i := .addAssign a b) (addAssign_of_base_ne ha hb hl hr hne),
    fun hl hr hbase hover => ?_⟩
  · exact (slotChecksComeFirst (.addAssign a b) s).2 a [b] rfl (by simp [slotOperands, ha, hb])
      (by simp [hf, slotStateNeeded])
  · have hlive := liveInv_slotAt h hl
    have hgrowth := ensureCapacity_eq_allocationFailure (one_le_capacityBytes hlive) hlive.capacity_le hover
    exact exec_of_error (i := .addAssign a b) (addAssign_of_growth_error ha hb hl hr hbase hgrowth)

/-- Settles O57: growth succeeds, and the loop adds into the grown destination. -/
theorem addAssignAddsExactly : Obligations.AddAssignAddsExactly := by
  rintro s a b _ h ha hb hl hr hbase rfl hfits
  have hlive := liveInv_slotAt h hl
  have hcap := one_le_capacityBytes hlive
  obtain ⟨g, hg⟩ := exists_ensureCapacity_eq_ok hcap hfits
  obtain ⟨hroom, -⟩ := ensureCapacity_ok hcap hlive.capacity_le hlive.canonical hlive.inside hg
  obtain ⟨hinv, hvalue, hcount, hstate, hbase', hbpd, hcapacity⟩ :=
    addInto_spec hlive (liveInv_slotAt h hr) hbase rfl hg
  obtain ⟨t, hexec, ht, hslot⟩ := exec_of_setSlot (i := .addAssign a b) (lt_slots_length h ha)
    (addAssign_of_grown ha hb hl hr hbase hg)
  refine ⟨t, _, hexec, ht, hslot, hvalue, hstate.trans hl, hbase', hbpd, hcount, hinv, ?_⟩
  rw [hbpd, hcapacity]
  exact ⟨hroom, fun k hk => ensureCapacity_least hcap hg hk⟩

/-! ## The value of a digit sequence (41_packed_number.md R113) -/

section
variable {b : Nat} {f : Nat → Nat} {n : Nat}

/-- Digits of the base stay below the weight of the next position. -/
theorem digitsValue_lt_pow (hf : ∀ i, i < n → f i < b) : digitsValue b f n < b ^ n := by
  induction n with
  | zero => simp [digitsValue]
  | succ n ih =>
    have hlow := ih fun i hi => hf i (by omega)
    calc digitsValue b f n + f n * b ^ n
      _ < b ^ n + f n * b ^ n := Nat.add_lt_add_right hlow _
      _ = (f n + 1) * b ^ n := by ring
      _ ≤ b * b ^ n := Nat.mul_le_mul_right _ (hf n (by omega))
      _ = b ^ (n + 1) := (pow_succ' b n).symm

/-- The largest digit in every position: one below the weight of the next position. -/
theorem digitsValue_add_one_of_top_digits (hb : 1 ≤ b) (hf : ∀ i, i < n → f i = b - 1) :
    digitsValue b f n + 1 = b ^ n := by
  induction n with
  | zero => rfl
  | succ n ih =>
    have hlow := ih fun i hi => hf i (by omega)
    calc digitsValue b f n + f n * b ^ n + 1
      _ = (digitsValue b f n + 1) + (b - 1) * b ^ n := by rw [hf n (by omega)]; ring
      _ = (b - 1 + 1) * b ^ n := by rw [hlow]; ring
      _ = b ^ (n + 1) := by rw [Nat.sub_add_cancel hb, pow_succ']

/-- The value is at least what any one digit stands for. -/
theorem digit_mul_pow_le_digitsValue {i : Nat} (hi : i < n) : f i * b ^ i ≤ digitsValue b f n := by
  induction n with
  | zero => omega
  | succ n ih =>
    rcases Nat.lt_succ_iff_lt_or_eq.1 hi with hlt | rfl
    · exact (ih hlt).trans (Nat.le_add_right _ _)
    · exact Nat.le_add_left _ _

theorem digits_eq_zero_of_digitsValue (hb : 1 ≤ b) (hv : digitsValue b f n = 0) {i : Nat} (hi : i < n) : f i = 0 := by
  have hle : f i * b ^ i ≤ 0 := hv ▸ digit_mul_pow_le_digitsValue hi
  exact (Nat.mul_eq_zero.1 (Nat.le_zero.1 hle)).resolve_right (Nat.pow_pos hb).ne'

end

section
variable {M : Nat} {sl : Slot}

theorem value_lt_pow (h : sl.LiveInv M) : sl.value < sl.base ^ sl.digitCount := digitsValue_lt_pow h.digits_lt

/-- A normalized number below its base has one digit (10_state.md R38). -/
theorem digitCount_eq_one_of_value_lt (h : sl.LiveInv M) (hv : sl.value < sl.base) : sl.digitCount = 1 := by
  have hpos := h.count_pos
  by_contra hne
  have htop : 1 ≤ sl.digit (sl.digitCount - 1) := Nat.pos_of_ne_zero (h.top_nonzero (by omega))
  have : sl.base ≤ sl.value :=
    calc sl.base
      _ = 1 * sl.base ^ 1 := by ring
      _ ≤ sl.digit (sl.digitCount - 1) * sl.base ^ (sl.digitCount - 1) :=
        Nat.mul_le_mul htop (Nat.pow_le_pow_right (by have := two_le_base h; omega) (by omega))
      _ ≤ sl.value := digit_mul_pow_le_digitsValue (by omega)
  omega

/-- `b^k` does not fit `k` digits, and in `k + 1` digits it is a 1 over `k` zeros. -/
theorem digits_of_value_eq_pow {k : Nat} (h : sl.LiveInv M) (hv : sl.value = sl.base ^ k)
    (hcount : sl.digitCount = k ∨ sl.digitCount = k + 1 ∧ sl.digit k = 1) :
    sl.digitCount = k + 1 ∧ (∀ i, i < k → sl.digit i = 0) ∧ sl.digit k = 1 := by
  rcases hcount with hk | ⟨hk, htop⟩
  · have := value_lt_pow h
    rw [hv, hk] at this
    exact absurd this (lt_irrefl _)
  · have hlow : digitsValue sl.base sl.digit k = 0 := by
      rw [Slot.value, hk, digitsValue, htop] at hv
      omega
    exact ⟨hk, fun i => digits_eq_zero_of_digitsValue (one_le_two.trans (two_le_base h)) hlow, htop⟩

end

/-! ## The carry chain (42_carry_adder.md R133) -/

/-- Settles O59: the sum is `b^k`, and its digits follow from that. -/
theorem carryChainMakesANewTopDigit : Obligations.CarryChainMakesANewTopDigit := by
  rintro s a b k h ha hb hl hr hbase hk hdigits hone hfits
  have hlive := liveInv_slotAt h hl
  have hright := liveInv_slotAt h hr
  have hright_count : (s.slotAt b).digitCount = 1 :=
    digitCount_eq_one_of_value_lt hright (by rw [hone]; exact two_le_base hright)
  have hmax : k = max (s.slotAt a).digitCount (s.slotAt b).digitCount := by
    have := hlive.count_pos
    omega
  obtain ⟨t, sl, hexec, -, rfl, hvalue, -, hbase', -, hcount, hinv, -⟩ :=
    addAssignAddsExactly s a b k h ha hb hl hr hbase hmax hfits
  have hleft : (s.slotAt a).value + 1 = (s.slotAt a).base ^ k := by
    rw [Slot.value, hk]
    exact digitsValue_add_one_of_top_digits (one_le_two.trans (two_le_base hlive)) hdigits
  have hsum : (t.slotAt a).value = (t.slotAt a).base ^ k := by rw [hvalue, hone, hleft, hbase']
  exact ⟨t, hexec, digits_of_value_eq_pow hinv hsum hcount⟩

end Sys2Proof.CarryAdderProofs
end

section
/-! PROOFS. The statements of 60_exceptions.md: how a command ends, that an error repeats, the `CMD` write while busy and
its race with the completion, and the faulted block. -/

namespace Sys2Proof.ExceptionProofs

open Sys2Proof.Machine Sys2Proof.Laws Sys2Proof.StateProofs Sys2Proof.MemoryProofs Sys2Proof.EncodingProofs
open Sys2Proof.PackedNumberProofs

/-! ## How a command ends (60_exceptions.md R135, R137) -/

/-- The causes that a command's own checks raise (60_exceptions.md R138). -/
theorem mem_commandCauses {s : State} {c : FaultCause} (h : OutcomeBounded s (.fault c)) :
    c ∈ [FaultCause.badSlot, .slotState, .range, .valueTooWide, .index] := by
  rcases h with rfl | rfl | rfl | rfl | rfl <;> decide

/-- Settles O25, by the outcome of the command. -/
theorem everyCommandEndsInOneOutcome : Obligations.EveryCommandEndsInOneOutcome := by
  intro i s
  refine ⟨_, exec_eq i s, ?_⟩
  have hbound := commandOf_bounded i s
  cases ho : commandOf i s with
  | ok t =>
    rw [ho] at hbound
    have ht : t = { s with bf := t.bf, bfLen := t.bfLen, slots := t.slots } := hbound
    rw [ht]
    exact .inl rfl
  | okValue t v =>
    rw [ho] at hbound
    obtain rfl : t = s := hbound
    exact .inl rfl
  | error e => exact .inr (.inl ⟨e, rfl⟩)
  | fault c => exact .inr (.inr ⟨c, mem_commandCauses (ho ▸ hbound), rfl⟩)

/-- An unfaulted end with a nonzero `ERR` is an error: Ok clears `ERR`, and a fault sets `FAULT`. -/
theorem outcome_eq_error {s : State} {o : CmdOutcome} (hf : (complete s o).Unfaulted)
    (he : (complete s o).status.err ≠ 0) : ∃ e, o = .error e := by
  cases o with
  | ok t => exact absurd rfl he
  | okValue t v => exact absurd rfl he
  | error e => exact ⟨e, rfl⟩
  | fault c => cases hf

/-- A command that ends in an error does so on every block with the same parameters, latch and units. -/
theorem commandOf_eq_error {i : Instr} {s u : State} {e : ErrCode} (h : commandOf i s = .error e)
    (hu : withInputsOf u s = u) : commandOf i u = .error e := by
  rw [← hu, commandOf_withInputsOf, h]
  rfl

/-- Settles O26: an error leaves all that the command reads, so the same checks fail again. -/
theorem errorsRepeat : Obligations.ErrorsRepeat := by
  intro i s t hexec _ hunfaulted herr
  obtain rfl : complete s (commandOf i s) = t := Host.Outcome.next.inj ((exec_eq i s).symm.trans hexec)
  obtain ⟨e, he⟩ := outcome_eq_error hunfaulted herr
  rw [he]
  exact exec_of_error (commandOf_eq_error he rfl)

/-! ## The `CMD` write while busy (60_exceptions.md R140, R143) -/

theorem step_cmdWrite_of_busy {s : State} {v : Word} {rest : List Event}
    (hs : s.schedule = .write s.params.regBase 8 v :: rest) (hf : s.Unfaulted) (hb : s.status.busy = true) :
    step s = .next (State.cmdWhileBusy { s with schedule := rest }) := by
  have hstep : step s = .next (hostWriteCmd { s with schedule := rest } v) :=
    step_hostWrite (off := 0) (by decide) rfl hs
  rw [hstep, hostWriteCmd_of_busy (s := { s with schedule := rest }) hf hb]

/-- Settles O10. -/
theorem cmdWhileBusyDrawsResultAndErr : Obligations.CmdWhileBusyDrawsResultAndErr := fun _ _ _ hs hf hb =>
  ⟨_, step_cmdWrite_of_busy hs hf hb, rfl, rfl⟩

/-- The engine's turn changes `RESULT`, `STATUS` and the units alone. -/
theorem engineTurn_frame {s t : State} (h : engineTurn s = .next t) :
    t = { s with result := t.result, status := t.status, bf := t.bf, bfLen := t.bfLen, slots := t.slots } := by
  rcases engineTurn_cases h with ⟨-, rfl⟩ | ⟨-, i, -, rfl⟩ | ⟨-, _, -, rfl⟩
  · rfl
  · exact complete_frame (commandOf_bounded i s)
  · rfl

/-- With no command pending the engine's turn is a stutter (log 2). -/
theorem engineTurn_of_idle {s : State} (hb : s.status.busy = false) : engineTurn s = .next s :=
  if_neg (Bool.eq_false_iff.1 hb)

/-- What the engine's turn on a busy block leaves: the block is idle, and the host's registers, the latch and the moves
to come are as they were. -/
theorem step_engine_of_busy {s t : State} {rest : List Event} (hs : s.schedule = .engine :: rest)
    (hb : s.status.busy = true) (h : step s = .next t) :
    t.status.busy = false ∧ t = { s with
      schedule := rest, result := t.result, status := t.status, bf := t.bf, bfLen := t.bfLen, slots := t.slots } := by
  rw [step_of_schedule hs] at h
  have hturn : engineTurn { s with schedule := rest } = .next t := h
  obtain ⟨u, hu, hidle⟩ := engineTurn_clears_busy (s := { s with schedule := rest }) hb
  obtain rfl : u = t := Host.Outcome.next.inj (hu.symm.trans hturn)
  exact ⟨hidle, engineTurn_frame hturn⟩

/-- Settles O20: after the engine's turn the block is ready for the write; after the write it is idle at the engine's
turn. -/
theorem cmdWriteRacesWithCompletion : Obligations.CmdWriteRacesWithCompletion := by
  intro s v rest hf hb
  refine ⟨fun t hs hstep hunfaulted => ?_, fun hs => ?_⟩
  · obtain ⟨hidle, ht⟩ := step_engine_of_busy hs hb hstep
    have hnext : t.schedule = .write t.params.regBase 8 v :: rest := by rw [ht]
    have harg0 : t.arg0 = s.arg0 := by rw [ht]
    have harg1 : t.arg1 = s.arg1 := by rw [ht]
    have harg2 : t.arg2 = s.arg2 := by rw [ht]
    obtain ⟨-, -, hissued⟩ := cmdWriteIsDroppedFaultsOrIssues t v rest hnext
    rw [← harg0, ← harg1, ← harg2]
    exact hissued hunfaulted hidle
  · refine ⟨_, step_cmdWrite_of_busy hs hf hb, rfl, rfl, ?_⟩
    rw [step_of_schedule rfl]
    exact engineTurn_of_idle rfl

/-! ## The faulted block (60_exceptions.md R141, R145) -/

/-- `t` is `s` but for the moves to come, the operand registers and the host's record of reads. -/
def SameBlock (s t : State) : Prop :=
  t = { s with schedule := t.schedule, arg0 := t.arg0, arg1 := t.arg1, arg2 := t.arg2, observed := t.observed }

theorem sameBlock_hostReadReg {s : State} (hb : s.status.busy = false) (rest : List Event) (r : WindowReg) :
    SameBlock s (hostReadReg { s with schedule := rest } r) := by
  rw [hostReadReg_withSchedule, readDraws_of_idle hb]
  rfl

/-- A write stores an operand or is ignored; a `CMD` write is dropped (10_state.md R21). -/
theorem sameBlock_hostWriteReg {s : State} (hf : s.status.fault = true) (rest : List Event) (v : Word) (r : WindowReg) :
    SameBlock s (hostWriteReg { s with schedule := rest } v r) := by
  cases r with
  | cmd =>
    rw [hostWriteReg, hostWriteCmd_of_faulted (s := { s with schedule := rest }) hf]
    rfl
  | arg0 | arg1 | arg2 | result | status | reserved => rfl

/-- Settles O33, by whose move the step is: the engine has none, and the host's other than reset reach no more. -/
theorem faultedBlockIsStuckUntilReset : Obligations.FaultedBlockIsStuckUntilReset := by
  intro s t hf hb hnoreset h
  change SameBlock s t
  rcases step_cases h with ⟨-, hturn⟩ | ⟨rest, ⟨-, hturn⟩ | ⟨_, _, -, rfl⟩ | ⟨_, _, v, -, rfl⟩ | ⟨hs, -⟩⟩
  · obtain rfl : s = t := Host.Outcome.next.inj ((engineTurn_of_idle hb).symm.trans hturn)
    rfl
  · obtain rfl := Host.Outcome.next.inj ((engineTurn_of_idle (s := { s with schedule := rest }) hb).symm.trans hturn)
    rfl
  · exact sameBlock_hostReadReg hb rest _
  · exact sameBlock_hostWriteReg hf rest v _
  · exact absurd (congrArg List.head? hs) hnoreset

end Sys2Proof.ExceptionProofs
end

section
/-! PROOFS. The statements of 70_reset_and_hazards.md: what reset leaves, and operand writes while a command is
pending. -/

namespace Sys2Proof.ResetProofs

open Sys2Proof.Machine Sys2Proof.Laws Sys2Proof.StateProofs Sys2Proof.MemoryProofs

/-! ## Operand writes while a command is pending (70_reset_and_hazards.md R159) -/

/-- `s` after the host has written its operand registers. -/
def withOperands (x y z : Word) (s : State) : State := { s with arg0 := x, arg1 := y, arg2 := z }

/-- No command reads an operand register: its operands are those of the latch (10_state.md R25). -/
theorem commandOf_withOperands (i : Instr) (x y z : Word) (s : State) :
    commandOf i (withOperands x y z s) = outcomeOn (withOperands x y z s) (commandOf i s) :=
  commandOf_withInputsOf i (withOperands x y z s) s

/-- No end of a command writes an operand register: what it leaves of them is what the host wrote. -/
theorem complete_withOperands (x y z : Word) {s : State} {o : CmdOutcome} (h : OutcomeBounded s o) :
    complete (withOperands x y z s) (outcomeOn (withOperands x y z s) o) = withOperands x y z (complete s o) := by
  cases o with
  | ok t =>
    have ht : t = { s with bf := t.bf, bfLen := t.bfLen, slots := t.slots } := h
    rw [ht]
    rfl
  | okValue t v =>
    obtain rfl : t = s := h
    rfl
  | error e => rfl
  | fault c => rfl

/-- Settles O30: the command's outcome and its completion both commute with writes of the operand registers. -/
theorem operandWritesNeverDisturbAPendingCommand : Obligations.OperandWritesNeverDisturbAPendingCommand := by
  intro i s x y z
  refine ⟨_, exec_eq i s, ?_⟩
  change exec i (withOperands x y z s) = .next (withOperands x y z (complete s (commandOf i s)))
  rw [exec_eq, commandOf_withOperands, complete_withOperands x y z (commandOf_bounded i s)]

/-! ## Reset (70_reset_and_hazards.md R153, R154) -/

/-- Reset is enabled in every state, whatever its `STATUS`. -/
theorem step_reset {s : State} {rest : List Event} (hs : s.schedule = .reset :: rest) :
    step s = .next (State.hostReset { s with schedule := rest }) := step_of_schedule hs

theorem slotAt_hostReset (s : State) (a : Nat) : s.hostReset.slotAt a = Slot.free := by
  rw [State.slotAt, hostReset_slots, List.getD_eq_getElem?_getD, List.getElem?_getD_replicate_default_eq]

/-- Settles O21. -/
theorem resetRestoresEveryRegister : Obligations.ResetRestoresEveryRegister := fun _ _ hs =>
  ⟨_, step_reset hs, rfl, rfl, rfl, rfl, rfl, rfl, rfl, fun _ => rfl, rfl, List.length_replicate,
    fun a _ => slotAt_hostReset _ a, rfl, rfl, rfl⟩

end Sys2Proof.ResetProofs
end
